-- ==== Sys2Proof/Word.lean ====
section
/-! DEFINITION. The word types of CCDC (00_scope.md rules R6, R9, R10): bytes, cells, command words. -/

namespace Sys2Proof

/-- 8 bits: a glyph code, an attribute, a character code, one byte of the grid region (R6). -/
abbrev Byte := BitVec 8

/-- 16 bits: one cell of the grid, attribute in the high byte, glyph in the low byte (R28). -/
abbrev GridCell := BitVec 16

/-- 32 bits: a command word or a register of the host port (R9, R36). -/
abbrev Word := BitVec 32

/-- 4 bits: an index of the 16-entry colour palette (R6, R29). -/
abbrev ColorIndex := BitVec 4

end Sys2Proof
end

