-- ==== Sys2Proof/Syntax.lean ====
section
/-! DEFINITION. The seven hardware commands, one constructor per row of spec/opcode_table.json (30_encoding.md R83). -/

namespace Sys2Proof

/-- A command of CCDC-CMD version 1. The operands are the values of 30_encoding.md R84 to R89: attributes and characters
as they stand, colour indices of 4 bits (an index above 15 is inexpressible, R86), coordinates as the integers
`sext_12(rowf)` and `sext_12(colf)` (R89). -/
inductive Instr where
  /-- INIT, format Z (R141). -/
  | init
  /-- CLEAR, format Z (R142). -/
  | clear
  /-- SETCOLOR, format A (R143). -/
  | setcolor (attr : Byte)
  /-- SETCOLORFB, format FB (R144). -/
  | setcolorfb (fg bg : ColorIndex)
  /-- WRCH, format C, no colour supplied (R145). -/
  | wrch (ch : Byte)
  /-- WRCHC, format CC, colour supplied (R146). -/
  | wrchc (ch attr : Byte)
  /-- SETCURSOR, format RC (R147). -/
  | setcursor (row col : Int)
  deriving DecidableEq, Repr

end Sys2Proof
end

