-- ==== Sys2Proof/WellFormed.lean ====
section
/-! DEFINITION. Which commands have a word: the operand ranges of 30_encoding.md R89 and R94. -/

namespace Sys2Proof

/-- An integer that a 12-bit two's complement field holds (R9, R89). -/
abbrev fits12 (v : Int) : Prop := -2048 ≤ v ∧ v ≤ 2047

/-- The command has an encoding. Every operand but a coordinate is a bit vector of its field's width and always fits. -/
abbrev Instr.wellFormed (i : Instr) : Prop :=
  match i with
  | .init => True
  | .clear => True
  | .setcolor _ => True
  | .setcolorfb _ _ => True
  | .wrch _ => True
  | .wrchc _ _ => True
  | .setcursor row col => fits12 row ∧ fits12 col

/-- The check as a Bool, for tests and for the assembler. -/
def Instr.check (i : Instr) : Bool :=
  match i with
  | .init => true
  | .clear => true
  | .setcolor _ => true
  | .setcolorfb _ _ => true
  | .wrch _ => true
  | .wrchc _ _ => true
  | .setcursor row col => decide (fits12 row) && decide (fits12 col)

end Sys2Proof
end

