-- ==== Sys2Proof/Decode.lean ====
section
/-! DEFINITION. The command decoder, total on every word and every byte string, and the encoder (30_encoding.md R80 to R93). -/

namespace Sys2Proof

/-- One row of the opcode map: a word `w` is the row's command when `w & mask == match` (R83). -/
structure OpRow where
  mnemonic : String
  /-- The table's `match`. -/
  pattern  : Word
  mask     : Word
  deriving DecidableEq, Repr

def rowInit       : OpRow := ⟨"INIT",       0x01000000#32, 0xFFFFFFFF#32⟩
def rowClear      : OpRow := ⟨"CLEAR",      0x02000000#32, 0xFFFFFFFF#32⟩
def rowSetcolor   : OpRow := ⟨"SETCOLOR",   0x03000000#32, 0xFFFFFF00#32⟩
def rowSetcolorfb : OpRow := ⟨"SETCOLORFB", 0x04000000#32, 0xFFFFF0F0#32⟩
def rowWrch       : OpRow := ⟨"WRCH",       0x05000000#32, 0xFFFFFF00#32⟩
def rowWrchc      : OpRow := ⟨"WRCHC",      0x05010000#32, 0xFFFF0000#32⟩
def rowSetcursor  : OpRow := ⟨"SETCURSOR",  0x06000000#32, 0xFF000000#32⟩

/-- The opcode map of R83, in its order. -/
def opRows : List OpRow :=
  [rowInit, rowClear, rowSetcolor, rowSetcolorfb, rowWrch, rowWrchc, rowSetcursor]

/-- `w & mask == match` (R83). -/
def OpRow.admits (r : OpRow) (w : Word) : Bool := w &&& r.mask == r.pattern

/-! The fields of R81, R82. -/

/-- `op`, bits 31:24 (R81). -/
def opField (w : Word) : Byte := w.extractLsb' 24 8
/-- `attr` of format A, bits 7:0 (R85). -/
def attrFieldA (w : Word) : Byte := w.extractLsb' 0 8
/-- `fg` of format FB, bits 3:0 (R86). -/
def fgField (w : Word) : ColorIndex := w.extractLsb' 0 4
/-- `bg` of format FB, bits 11:8 (R86). -/
def bgField (w : Word) : ColorIndex := w.extractLsb' 8 4
/-- `ch` of formats C and CC, bits 7:0 (R87, R88). -/
def chField (w : Word) : Byte := w.extractLsb' 0 8
/-- `attr` of format CC, bits 15:8 (R88). -/
def attrFieldCC (w : Word) : Byte := w.extractLsb' 8 8
/-- `rowf` of format RC, bits 23:12 (R89). -/
def rowField (w : Word) : BitVec 12 := w.extractLsb' 12 12
/-- `colf` of format RC, bits 11:0 (R89). -/
def colField (w : Word) : BitVec 12 := w.extractLsb' 0 12

/-- Why a word, or a byte string, is no command (R91). Rejection by name. -/
inductive Reserved where
  /-- `op` 0x00 or 0x07 to 0xFF (R91). -/
  | unassignedOpcode (op : Byte)
  /-- `op` 0x01 to 0x05 with a must-be-0 bit set (R91). -/
  | mustBeZeroBitSet (op : Byte)
  /-- A byte string that is not one 32-bit word (R80, R93). -/
  | notOneWord (bytes : Nat)
  deriving DecidableEq, Repr

/-- The name of a word that matches no row (R91). -/
def reservedReason (w : Word) : Reserved :=
  if opField w = 0#8 ∨ 7#8 ≤ opField w then .unassignedOpcode (opField w)
  else .mustBeZeroBitSet (opField w)

/-- R90: compare the word with the rows of R83; extract the operands of the row that matches. -/
def decode (w : Word) : Except Reserved Instr :=
  if rowInit.admits w then .ok .init
  else if rowClear.admits w then .ok .clear
  else if rowSetcolor.admits w then .ok (.setcolor (attrFieldA w))
  else if rowSetcolorfb.admits w then .ok (.setcolorfb (fgField w) (bgField w))
  else if rowWrch.admits w then .ok (.wrch (chField w))
  else if rowWrchc.admits w then .ok (.wrchc (chField w) (attrFieldCC w))
  else if rowSetcursor.admits w then .ok (.setcursor (rowField w).toInt (colField w).toInt)
  else .error (reservedReason w)

/-- A register's four bytes as a word, byte 0 its bits 7:0 (20_memory.md R55). -/
def wordOfBytes (b0 b1 b2 b3 : Byte) : Word := b3 ++ b2 ++ b1 ++ b0

/-- The four bytes of a word, lowest address first (20_memory.md R55). -/
def bytesOfWord (w : Word) : List Byte :=
  [w.extractLsb' 0 8, w.extractLsb' 8 8, w.extractLsb' 16 8, w.extractLsb' 24 8]

/-- The word a byte string is, when it is four bytes long (R80: one aligned 32-bit write). -/
def wordOf? : List Byte → Option Word
  | [b0, b1, b2, b3] => some (wordOfBytes b0 b1 b2 b3)
  | _ => none

/-- The decoder on any byte string. -/
def decodeBytes (bs : List Byte) : Except Reserved Instr :=
  match wordOf? bs with
  | some w => decode w
  | none => .error (.notOneWord bs.length)

/-- The row of R83 that a command belongs to. -/
def Instr.row (i : Instr) : OpRow :=
  match i with
  | .init => rowInit
  | .clear => rowClear
  | .setcolor _ => rowSetcolor
  | .setcolorfb _ _ => rowSetcolorfb
  | .wrch _ => rowWrch
  | .wrchc _ _ => rowWrchc
  | .setcursor _ _ => rowSetcursor

/-- The command word: the right column of 30_encoding.md R94, where `v mod 4096` is `BitVec.ofInt 12 v`. -/
def encode (i : Instr) : Word :=
  match i with
  | .init => 0x01000000#32
  | .clear => 0x02000000#32
  | .setcolor attr => 0x03000000#32 ||| attr.setWidth 32
  | .setcolorfb fg bg => 0x04000000#32 ||| (bg.setWidth 32 <<< 8) ||| fg.setWidth 32
  | .wrch ch => 0x05000000#32 ||| ch.setWidth 32
  | .wrchc ch attr => 0x05010000#32 ||| (attr.setWidth 32 <<< 8) ||| ch.setWidth 32
  | .setcursor row col =>
      0x06000000#32 ||| ((BitVec.ofInt 12 row).setWidth 32 <<< 12) ||| (BitVec.ofInt 12 col).setWidth 32

/-- What the decoder reads from the table's bits `w` of a row of `nbits` bits, laid out in CMD's byte order
(20_memory.md R55): every command is one 32-bit word (R93), and bits above `nbits` are 0. -/
def decodeTableWord (nbits w : Nat) : Option Instr :=
  match decodeBytes (bytesOfWord (BitVec.ofNat 32 (w % 2 ^ nbits))) with
  | .ok i => some i
  | .error _ => none

end Sys2Proof
end

