-- ==== Sys2Proof/Config.lean ====
section
/-! DEFINITION. The constants of CCDC (00_scope.md R6, R8), its open parameters (R7) and its free values (U1). -/

namespace Sys2Proof

/-- `ROWS` (R6). -/
abbrev Config.rows : Nat := 25

/-- `COLUMNS` (R6). -/
abbrev Config.columns : Nat := 80

/-- `CELLS` = `ROWS × COLUMNS` (R6). -/
abbrev Config.cells : Nat := 2000

/-- Bytes of the grid region, `2 × CELLS` (20_memory.md R50). -/
abbrev Config.gridBytes : Nat := 4000

/-- Bytes of the register block (20_memory.md R50). -/
abbrev Config.regBytes : Nat := 12

/-- `GLYPH_SPACE` at the binding of R8. PRESUMED by the spec itself (K2), unsafe in the number: log entry 9. -/
def Config.glyphSpace : Byte := 0x20#8

/-- `CH_NEWLINE` at the binding of R8. PRESUMED by the spec itself (K2), unsafe in the number: log entry 9. -/
def Config.chNewline : Byte := 0x0A#8

/-- `CH_CR` at the binding of R8. PRESUMED by the spec itself (K2), unsafe in the number: log entry 9. -/
def Config.chCr : Byte := 0x0D#8

/-- `DEFAULT_FG`, light grey, at the binding of R8. PRESUMED by the spec itself (K3), unsafe in the number: log entry 9. -/
def Config.defaultFg : ColorIndex := 7#4

/-- `DEFAULT_BG`, black, at the binding of R8. PRESUMED by the spec itself (K3), unsafe in the number: log entry 9. -/
def Config.defaultBg : ColorIndex := 0#4

/-- The names of the palette's entries, index 0 first (10_state.md R30). PRESUMED by the spec itself (K3), safe: no
rule of the controller reads a name. -/
def Config.paletteNames : List String :=
  ["black", "blue", "green", "cyan", "red", "magenta", "brown", "light grey",
   "dark grey", "light blue", "light green", "light cyan", "light red", "light magenta", "yellow", "white"]

/-- The byte that offset `offset` of the grid region holds after hardware reset number `n` (0 is power-on). FREE VALUE:
10_state.md R41, 70_reset_and_hazards.md R191 and U1 leave every cell unspecified and allow a different grid after each
reset. No body, so no proof can lean on a value. DEDUCED, safe: log entry 2. -/
opaque Config.resetByte (n offset : Nat) : Byte

/-- The open parameters of R7 (U10): what a platform fixes and CCDC does not. -/
structure Layout where
  /-- `GRID_BASE`, the byte address of cell 0. -/
  gridBase : Nat
  /-- `REG_BASE`, the byte address of CMD. -/
  regBase  : Nat
  /-- `ADDR_BITS`, the width of an address. -/
  addrBits : Nat
  deriving DecidableEq, Repr

/-- The constraints R7 puts on the open parameters: alignment, no wrap of either region, no overlap. -/
abbrev Layout.Valid (L : Layout) : Prop :=
  L.gridBase % 2 = 0 ∧ L.regBase % 4 = 0 ∧
  L.gridBase + Config.gridBytes ≤ 2 ^ L.addrBits ∧ L.regBase + Config.regBytes ≤ 2 ^ L.addrBits ∧
  (L.gridBase + Config.gridBytes ≤ L.regBase ∨ L.regBase + Config.regBytes ≤ L.gridBase)

end Sys2Proof
end

