-- ==== Sys2Proof/Machine/Codec.lean ====
section
/-! DEFINITION. The Cell Codec (40_cell_codec.md): pure packing functions and their inverses. No state (R114). -/

namespace Sys2Proof.Machine

/-- `encode_cell(glyph, attr) = glyph | (attr << 8)` (R110). -/
def encodeCell (glyph attr : Byte) : GridCell := glyph.setWidth 16 ||| (attr.setWidth 16 <<< 8)

/-- `encode_attribute(fg, bg) = fg | (bg << 4)` (R111). Its operands are 4 bits, so R112 cannot arise. -/
def encodeAttribute (fg bg : ColorIndex) : Byte := fg.setWidth 8 ||| (bg.setWidth 8 <<< 4)

/-- `glyph_of(cell) = cell[7:0]` (R113). -/
def glyphOf (c : GridCell) : Byte := c.extractLsb' 0 8

/-- `attr_of(cell) = cell[15:8]` (R113). -/
def attrOf (c : GridCell) : Byte := c.extractLsb' 8 8

/-- `fg_of(attr) = attr[3:0]` (R113). -/
def fgOf (a : Byte) : ColorIndex := a.extractLsb' 0 4

/-- `bg_of(attr) = attr[7:4]` (R113). -/
def bgOf (a : Byte) : ColorIndex := a.extractLsb' 4 4

/-- `BLANK(attr) = encode_cell(GLYPH_SPACE, attr)` (R115). -/
def blank (attr : Byte) : GridCell := encodeCell Config.glyphSpace attr

/-- `DEFAULT_ATTR = encode_attribute(DEFAULT_FG, DEFAULT_BG)` (00_scope.md R8). -/
def defaultAttr : Byte := encodeAttribute Config.defaultFg Config.defaultBg

end Sys2Proof.Machine
end

