-- ==== Sys2Proof/Machine/Memory.lean ====
section
/-! DEFINITION. The grid region as memory: a list of (address, byte) pairs in one canonical form (20_memory.md R50 to R57).
An address is the byte's offset in the region, `GRID_BASE` being 0: the base is an open parameter (00_scope.md R7, 20_memory.md
R54), which only the bus functions of Machine/Bus.lean see. DESIGN CHOICE, safe: log entry 1. -/

namespace Sys2Proof.Machine

/-- The bytes of the grid region. -/
abbrev Memory := List Host.Cell

/-- What an address that is not listed reads as: nothing. The grid has a byte at every address of its region from
power-on (10_state.md R34), so an unlisted address is one the spec says does not exist (R50). -/
def Memory.unlisted : Option Byte := none

/-- The canonical form: exactly the addresses 0 to 3999 are listed, in rising order. -/
abbrev Memory.wf (m : Memory) : Prop := m.map Prod.fst = List.range Config.gridBytes

/-- One byte. -/
def Memory.read : Memory → Nat → Option Byte
  | [], _ => Memory.unlisted
  | (k, b) :: m, a => if a = k then some b else Memory.read m a

/-- The memory with one listed byte replaced. An address that is not listed is left unlisted. -/
def Memory.set : Memory → Nat → Byte → Memory
  | [], _, _ => []
  | (k, b) :: m, a, v => if a = k then (k, v) :: m else (k, b) :: Memory.set m a v

/-- The offset of cell `i`'s glyph byte; its attribute byte is the next one (R53). -/
def cellOffset (i : Nat) : Nat := 2 * i

/-- `idx(r, c) = 80 × r + c` (R52). -/
def idx (r c : Nat) : Nat := Config.columns * r + c

/-- `G[i]`: the cell read whole, little-endian (R55, R57). -/
def Memory.readCell (m : Memory) (i : Nat) : Option GridCell :=
  match m.read (cellOffset i), m.read (cellOffset i + 1) with
  | some glyph, some attr => some (encodeCell glyph attr)
  | _, _ => none

/-- `G[i] <- v`: glyph and attribute replaced together, little-endian (R55, R57). -/
def Memory.setCell (m : Memory) (i : Nat) (v : GridCell) : Memory :=
  (m.set (cellOffset i) (glyphOf v)).set (cellOffset i + 1) (attrOf v)

/-- Cells laid out from cell `i` on (R53, R55). -/
def Memory.ofCellsFrom : Nat → List GridCell → Memory
  | _, [] => []
  | i, c :: cs => (cellOffset i, glyphOf c) :: (cellOffset i + 1, attrOf c) :: Memory.ofCellsFrom (i + 1) cs

/-- The grid as memory, cell 0 first. -/
def Memory.ofCells (cs : List GridCell) : Memory := Memory.ofCellsFrom 0 cs

/-- Bytes taken two at a time as cells, low byte first (R55). -/
def pairBytes : List Byte → List GridCell
  | lo :: hi :: bs => encodeCell lo hi :: pairBytes bs
  | _ => []

/-- The grid as an array of cells, cell 0 first (R27, R54). -/
def Memory.toCells (m : Memory) : List GridCell := pairBytes (m.map Prod.snd)

/-- The unspecified grid after hardware reset number `n` (10_state.md R41, U1): every byte is listed, every value free. -/
def resetMemory (n : Nat) : Memory := (List.range Config.gridBytes).map fun a => (a, Config.resetByte n a)

end Sys2Proof.Machine
end

