-- ==== Sys2Proof/Machine/State.lean ====
section
/-! DEFINITION. The state of CCDC (10_state.md R20) with the model's own bookkeeping, reset, and the reasons a step stops. -/

namespace Sys2Proof.Machine

/-- The two regions of the host's address space that CCDC answers in (20_memory.md R50). -/
inductive Region where
  /-- The grid, 4000 bytes at `GRID_BASE`. -/
  | grid
  /-- The register block, 12 bytes at `REG_BASE`. -/
  | regs
  deriving DecidableEq, Repr

/-- What the outside world does to CCDC, one event at a time (00_scope.md R12). -/
inductive HostEvent where
  /-- The host reads `bytes` bytes at an offset of a region. -/
  | read (region : Region) (offset bytes : Nat)
  /-- The host writes bytes at an offset of a region, lowest address first. -/
  | write (region : Region) (offset : Nat) (data : List Byte)
  /-- Hardware reset (70_reset_and_hazards.md R190 to R192). -/
  | reset
  deriving DecidableEq, Repr

/-- What a read returned to the host (20_memory.md R58; 10_state.md R37 to R39). -/
inductive ReadData where
  | byte (v : Byte)
  | cell (v : GridCell)
  | word (v : Word)
  deriving DecidableEq, Repr

/-- One access of the controller to a whole cell (20_memory.md R57). -/
inductive CellAccess where
  /-- `GridRead(i)` returned `v`. -/
  | read (i : Nat) (v : GridCell)
  /-- `GridWrite(i, v)`. -/
  | write (i : Nat) (v : GridCell)
  deriving DecidableEq, Repr

/-- The machine. The first four fields are the spec's `S = (row, col, color, G)` (00_scope.md R13); the others are the
model's own and no command reads them. -/
structure State where
  /-- The cursor's row, 5 bits (R21). -/
  row      : BitVec 5
  /-- The cursor's column, 7 bits (R22). -/
  col      : BitVec 7
  /-- The active colour (R23). -/
  color    : Byte
  /-- The grid `G` (R27). -/
  mem      : Memory
  /-- MODEL'S OWN: what the host will do, in its program order (R25). Log entry 3. -/
  host     : List HostEvent
  /-- MODEL'S OWN: what the host has read, oldest first. Log entry 4. -/
  observed : List ReadData
  /-- MODEL'S OWN: the controller's cell accesses since reset, oldest first; its writes are the store trace (R16).
  Log entry 5. -/
  log      : List CellAccess
  /-- MODEL'S OWN: the scroll count since reset (R16). Log entry 5. -/
  scrolls  : Nat
  /-- MODEL'S OWN: hardware resets since power-on; it makes each reset's grid a fresh free value. Log entry 2. -/
  resets   : Nat
  deriving DecidableEq, Repr

/-- Why a step stops with a fault. The spec has no fault (R15, R170); each of these needs a state that no run reaches. -/
inductive Fault where
  /-- Raised by GridRead or GridWrite (Machine/Ops.lean) on a cell the grid does not have, against their requirement
  `0 ≤ i < CELLS` (R11). Safe: R31 rules the state out, and the model only stops there. -/
  | cellOutsideGrid (i : Nat)
  /-- Raised by SCROLL (Machine/Ops.lean) when the memory is not in its canonical form. Safe: no run reaches such a
  state, and the model only stops there. -/
  | gridNotWhole
  deriving DecidableEq, Repr

/-- What the model gives no meaning. -/
inductive Refusal where
  /-- An instruction whose meaning is not written yet. Raised only by an arm of Machine/Dispatch.lean. Safe. -/
  | notModelled (mnemonic : String)
  /-- A host store into the grid: forbidden, refused (20_memory.md R60, U5, D18). Raised by Machine/Port.lean. Safe. -/
  | hostWritesGrid (offset : Nat)
  /-- A host access of a shape outside the interface (10_state.md R40, 20_memory.md R58, U8). Raised by
  Machine/Port.lean and Machine/Bus.lean. Safe. -/
  | accessShape (region : Region) (offset bytes : Nat)
  /-- An address of neither region, which the platform does not bring to CCDC (R50). Raised by Machine/Bus.lean. Safe. -/
  | notThisDevice (addr : Nat)
  /-- WRSTR of bytes with no zero among them (43_stream_macros.md R164, U4). Raised by Machine/Stream.lean. Safe. -/
  | noTerminator
  deriving DecidableEq, Repr

/-- The outcome of a command or a step. -/
abbrev Result := Host.Outcome State Fault Refusal

/-! One update per field, for the meanings to use; their lemmas are in Laws/State.lean. -/

def State.withRow (s : State) (v : BitVec 5) : State := { s with row := v }
def State.withCol (s : State) (v : BitVec 7) : State := { s with col := v }
def State.withColor (s : State) (v : Byte) : State := { s with color := v }
def State.withMem (s : State) (m : Memory) : State := { s with mem := m }
def State.withHost (s : State) (h : List HostEvent) : State := { s with host := h }
/-- The host has read `d`. -/
def State.observe (s : State) (d : ReadData) : State := { s with observed := s.observed ++ [d] }
/-- The controller has performed these accesses. -/
def State.logged (s : State) (l : List CellAccess) : State := { s with log := s.log ++ l }
/-- SCROLL has been invoked once more. -/
def State.countScroll (s : State) : State := { s with scrolls := s.scrolls + 1 }

/-- The machine right after power-on reset (10_state.md R41, 70_reset_and_hazards.md R190, R191): the three registers at
their values, the grid unspecified, no command presented yet. -/
def State.reset : State where
  row      := 0#5
  col      := 0#7
  color    := defaultAttr
  mem      := resetMemory 0
  host     := []
  observed := []
  log      := []
  scrolls  := 0
  resets   := 0

end Sys2Proof.Machine
end

