-- ==== Sys2Proof/Machine/Flags.lean ====
section
/-! DEFINITION. CCDC has no flags and no condition codes (10_state.md R26). What a command tests, it tests here, and no test
leaves a result behind. -/

namespace Sys2Proof.Machine

/-- The three classes of a character (41_cursor_scroll_engine.md R120). -/
inductive CharClass where
  | newline
  | carriageReturn
  | printable
  deriving DecidableEq, Repr

/-- R120, R172: newline is tested before carriage return; every other code is printable (R130). -/
def classify (ch : Byte) : CharClass :=
  if ch = Config.chNewline then .newline
  else if ch = Config.chCr then .carriageReturn
  else .printable

/-- `col == COLUMNS` (R26, R123). -/
def State.colFull (s : State) : Bool := s.col == BitVec.ofNat 7 Config.columns

/-- `row == ROWS` (R26, R124). -/
def State.rowFull (s : State) : Bool := s.row == BitVec.ofNat 5 Config.rows

end Sys2Proof.Machine
end

