-- ==== Sys2Proof/Machine/Operands.lean ====
section
/-! DEFINITION. What the commands make of their operands: CLAMP for coordinates (41_cursor_scroll_engine.md R129). Attributes,
colour indices and characters are used as they stand (30_encoding.md R85 to R88). -/

namespace Sys2Proof.Machine

/-- `clamp(v, lo, hi)` on integers (00_scope.md R10). -/
def clamp (v lo hi : Int) : Int := if v < lo then lo else if hi < v then hi else v

/-- `clamp_row(R) = clamp(R, 0, ROWS − 1)` as the 5-bit register holds it (R129, R21). -/
def clampRow (r : Int) : BitVec 5 := BitVec.ofInt 5 (clamp r 0 (Config.rows - 1))

/-- `clamp_col(C) = clamp(C, 0, COLUMNS − 1)` as the 7-bit register holds it (R129, R22). -/
def clampCol (c : Int) : BitVec 7 := BitVec.ofInt 7 (clamp c 0 (Config.columns - 1))

end Sys2Proof.Machine
end

