-- ==== Sys2Proof/Machine/Ops.lean ====
section
/-! DEFINITION. The micro-operations of the Cursor/Scroll Engine and the grid writer (41_cursor_scroll_engine.md), which the
commands are built from. There is no exception entry and no return: CCDC has neither (60_exceptions.md R170, R175, R176). -/

namespace Sys2Proof.Machine

/-- Sequencing: the second operation runs on the state the first one leaves. -/
def andThen (r : Result) (f : State → Result) : Result :=
  match r with
  | .next s => f s
  | .fault e => .fault e
  | .refused e => .refused e

/-- `GridWrite(i, v)` (00_scope.md R11): one whole cell, appended to the trace. -/
def gridWrite (i : Nat) (v : GridCell) (s : State) : Result :=
  match s.mem.readCell i with
  | some _ => .next ((s.withMem (s.mem.setCell i v)).logged [.write i v])
  | none => .fault (.cellOutsideGrid i)

/-- `GridRead(i)` followed by `GridWrite(j, v)` of the value read: the body of SCROLL's copy loop (R126). -/
def gridCopy (i j : Nat) (s : State) : Result :=
  match s.mem.readCell i with
  | some v => gridWrite j v (s.logged [.read i v])
  | none => .fault (.cellOutsideGrid i)

/-- `STORE_CELL(r, c, ch)`: `GridWrite(idx(r, c), encode_cell(ch, color))` (R125). -/
def storeCell (r : BitVec 5) (c : BitVec 7) (ch : Byte) (s : State) : Result :=
  gridWrite (idx r.toNat c.toNat) (encodeCell ch s.color) s

/-- The stores of a fill: cells in ascending index from `i` on, `n` of them (R128). -/
def fillLog (v : GridCell) : Nat → Nat → List CellAccess
  | _, 0 => []
  | i, n + 1 => .write i v :: fillLog v (i + 1) n

/-- `FILL_GRID(v)`, its net effect and its trace (R128, R127). That the loop of the spec's pseudocode does the same is a
statement of its own. -/
def fillGrid (v : GridCell) (s : State) : State :=
  (s.withMem (Memory.ofCells (List.replicate Config.cells v))).logged (fillLog v 0 Config.cells)

/-- The accesses of SCROLL's copies, ascending from cell `i` on: read the cell one row below, store it (R126). -/
def copyLog : Nat → List GridCell → List CellAccess
  | _, [] => []
  | i, v :: vs => .read (i + Config.columns) v :: .write i v :: copyLog (i + 1) vs

/-- Cell index of the last row's first cell (R52). -/
abbrev lastRow : Nat := 1920

/-- `SCROLL`, its net effect and its accesses (R126, R127): rows 1 to 24 move up one row, row 24 takes BLANK(color), the old
row 0 is lost. That the loops of the spec's pseudocode do the same is a statement of its own. -/
def scroll (s : State) : Result :=
  if s.mem.wf then
    let kept := s.mem.toCells.drop Config.columns
    .next (((s.withMem (Memory.ofCells (kept ++ List.replicate Config.columns (blank s.color)))).logged
      (copyLog 0 kept ++ fillLog (blank s.color) lastRow Config.columns)).countScroll)
  else .fault .gridNotWhole

/-- `LINEFEED` (R124): `row <- row + 1`, and at `ROWS` one SCROLL and `row <- ROWS − 1`. -/
def lineFeed (s : State) : Result :=
  let s1 := s.withRow (s.row + 1#5)
  if s1.rowFull then andThen (scroll s1) fun s2 => .next (s2.withRow 24#5) else .next s1

/-- ADVANCE, newline (R121). -/
def advanceNewline (s : State) : Result := lineFeed (s.withCol 0#7)

/-- ADVANCE, carriage return (R122). -/
def advanceReturn (s : State) : Result := .next (s.withCol 0#7)

/-- ADVANCE, printable (R123): the cell is stored at the cursor first, then the cursor moves, wraps and may scroll
(90_conflicts.md C1). -/
def advancePrintable (ch : Byte) (s : State) : Result :=
  andThen (storeCell s.row s.col ch s) fun s1 =>
    let s2 := s1.withCol (s1.col + 1#7)
    if s2.colFull then lineFeed (s2.withCol 0#7) else .next s2

/-- `ADVANCE(ch)` (R120). -/
def advance (ch : Byte) (s : State) : Result :=
  match classify ch with
  | .newline => advanceNewline s
  | .carriageReturn => advanceReturn s
  | .printable => advancePrintable ch s

/-! The spec's pseudocode for the two long micro-operations, cell by cell, to hold the net effects against. -/

/-- `for i in i0..: f i`, `n` times, ascending (00_scope.md R10). -/
def forCells (f : Nat → State → Result) : Nat → Nat → State → Result
  | _, 0, s => .next s
  | i, n + 1, s => andThen (f i s) (forCells f (i + 1) n)

/-- R128's loop. -/
def fillGridLoop (v : GridCell) (s : State) : Result :=
  forCells (fun i => gridWrite i v) 0 Config.cells s

/-- R126's loops: for each row 0 to 23 and each column, copy the cell one row below; then blank the last row. -/
def scrollLoop (s : State) : Result :=
  andThen (forCells (fun r => forCells (fun c => gridCopy (idx (r + 1) c) (idx r c)) 0 Config.columns) 0 (Config.rows - 1) s)
    fun s1 =>
      andThen (forCells (fun c => gridWrite (idx (Config.rows - 1) c) (blank s1.color)) 0 Config.columns s1) fun s2 =>
        .next s2.countScroll

end Sys2Proof.Machine
end

