-- ==== Sys2Proof/Machine/Color.lean ====
section
/-! DEFINITION. SETCOLOR and SETCOLORFB (42_surface_commands.md R143, R144). -/

namespace Sys2Proof.Machine

/-- SETCOLOR (R143): `color <- attr`, all 256 values legal. -/
def execSetcolor (attr : Byte) (s : State) : Result := .next (s.withColor attr)

/-- SETCOLORFB (R144): `color <- encode_attribute(fg, bg)`. -/
def execSetcolorfb (fg bg : ColorIndex) (s : State) : Result := .next (s.withColor (encodeAttribute fg bg))

end Sys2Proof.Machine
end

