-- ==== Sys2Proof/Machine/Cursor.lean ====
section
/-! DEFINITION. SETCURSOR (42_surface_commands.md R147). -/

namespace Sys2Proof.Machine

/-- SETCURSOR (R147): both coordinates clamped, on any integers; no store, no scroll. -/
def execSetcursor (row col : Int) (s : State) : Result := .next ((s.withRow (clampRow row)).withCol (clampCol col))

end Sys2Proof.Machine
end

