-- ==== Sys2Proof/Machine/Surface.lean ====
section
/-! DEFINITION. INIT and CLEAR (42_surface_commands.md R141, R142). -/

namespace Sys2Proof.Machine

/-- INIT (R141): cursor (0,0), colour DEFAULT_ATTR, every cell BLANK(DEFAULT_ATTR). -/
def execInit (s : State) : Result :=
  .next (fillGrid (blank defaultAttr) (((s.withRow 0#5).withCol 0#7).withColor defaultAttr))

/-- CLEAR (R142): every cell BLANK(color), the active colour, which is kept (D10, C2); cursor (0,0). -/
def execClear (s : State) : Result :=
  .next (((fillGrid (blank s.color) s).withRow 0#5).withCol 0#7)

end Sys2Proof.Machine
end

