-- ==== Sys2Proof/Machine/Write.lean ====
section
/-! DEFINITION. WRCH and WRCHC (42_surface_commands.md R145, R146). -/

namespace Sys2Proof.Machine

/-- WRCH (R145): `ADVANCE(ch)` with the active colour. -/
def execWrch (ch : Byte) (s : State) : Result := advance ch s

/-- WRCHC (R146): `color <- attr` first, for every class of character (D24) and every value of `attr` (D8); then as WRCH. -/
def execWrchc (ch attr : Byte) (s : State) : Result := advance ch (s.withColor attr)

end Sys2Proof.Machine
end

