-- ==== Sys2Proof/Machine/Dispatch.lean ====
section
/-! DEFINITION. One arm per command (30_encoding.md R83). -/

namespace Sys2Proof.Machine

def exec (i : Instr) (s : State) : Host.Outcome State Fault Refusal :=
  match i with
  | .init => Sys2Proof.Machine.execInit s
  | .clear => Sys2Proof.Machine.execClear s
  | .setcolor attr => Sys2Proof.Machine.execSetcolor attr s
  | .setcolorfb fg bg => Sys2Proof.Machine.execSetcolorfb fg bg s
  | .wrch ch => Sys2Proof.Machine.execWrch ch s
  | .wrchc ch attr => Sys2Proof.Machine.execWrchc ch attr s
  | .setcursor row col => Sys2Proof.Machine.execSetcursor row col s

end Sys2Proof.Machine
end

