-- ==== Sys2Proof/Machine/Port.lean ====
section
/-! DEFINITION. The host port (10_state.md R36 to R40), the host's reads of the grid (20_memory.md R58) and hardware reset
(70_reset_and_hazards.md R190 to R192). One event is one step: the port serves nothing else while a command runs (R65). -/

namespace Sys2Proof.Machine

/-- `Exec(w)` (00_scope.md R14): the command the word names, or nothing for a reserved word (30_encoding.md R90, R91). -/
def runWord (w : Word) (s : State) : Result :=
  match decode w with
  | .ok i => exec i s
  | .error _ => .next s

/-- CURSOR, a view of `row` and `col` (R38): ROW in bits 12:8, COL in bits 6:0, every other bit 0. -/
def cursorReg (s : State) : Word := (s.row.setWidth 32 <<< 8) ||| s.col.setWidth 32

/-- COLOR, a view of `color` (R39): bits 7:0, every other bit 0. -/
def colorReg (s : State) : Word := s.color.setWidth 32

/-- A read of the register block: only aligned 32-bit reads at 0x0, 0x4, 0x8 (R40). CMD reads 0 (R37, D25). -/
def readReg (offset bytes : Nat) (s : State) : Option ReadData :=
  if bytes = 4 then
    if offset = 0 then some (.word 0#32)
    else if offset = 4 then some (.word (cursorReg s))
    else if offset = 8 then some (.word (colorReg s))
    else none
  else none

/-- A read of the grid: an aligned 16-bit cell, a byte, or an aligned pair of cells `(G[i+1], G[i])` with `i` even (R58).
Anything else, or beyond the region, is no read of the interface. -/
def readGrid (offset bytes : Nat) (s : State) : Option ReadData :=
  if bytes = 1 then (s.mem.read offset).map .byte
  else if bytes = 2 ∧ offset % 2 = 0 then (s.mem.readCell (offset / 2)).map .cell
  else if bytes = 4 ∧ offset % 4 = 0 then
    match s.mem.readCell (offset / 2), s.mem.readCell (offset / 2 + 1) with
    | some lo, some hi => some (.word (hi ++ lo))
    | _, _ => none
  else none

/-- A host read: it changes nothing of the controller (R59); the host has seen the value. -/
def hostRead (region : Region) (offset bytes : Nat) (s : State) : Result :=
  match (match region with | .grid => readGrid offset bytes s | .regs => readReg offset bytes s) with
  | some d => .next (s.observe d)
  | none => .refused (.accessShape region offset bytes)

/-- A host write: CMD executes the word (R37), CURSOR and COLOR ignore it (R38, R39), the grid is not the host's to write
(R60). -/
def hostWrite (region : Region) (offset : Nat) (data : List Byte) (s : State) : Result :=
  match region with
  | .grid => .refused (.hostWritesGrid offset)
  | .regs =>
    match wordOf? data with
    | none => .refused (.accessShape .regs offset data.length)
    | some w =>
      if offset = 0 then runWord w s
      else if offset = 4 ∨ offset = 8 then .next s
      else .refused (.accessShape .regs offset data.length)

/-- Hardware reset (R190, R191, U14): the registers at their reset values, the grid unspecified anew, the trace empty. What
the host still means to do, and what it has read, are not the controller's. -/
def hardReset (s : State) : State where
  row      := 0#5
  col      := 0#7
  color    := defaultAttr
  mem      := resetMemory (s.resets + 1)
  host     := s.host
  observed := s.observed
  log      := []
  scrolls  := 0
  resets   := s.resets + 1

/-- One event. -/
def hostEvent (e : HostEvent) (s : State) : Result :=
  match e with
  | .read region offset bytes => hostRead region offset bytes s
  | .write region offset data => hostWrite region offset data s
  | .reset => .next (hardReset s)

/-- The next event of the host, if it has one; with none, CCDC keeps its state (log entry 3). -/
def serveHost (s : State) : Result :=
  match s.host with
  | [] => .next s
  | e :: rest => hostEvent e (s.withHost rest)

/-- The host about to write a command word to CMD, before anything else it means to do. -/
def presentWord (w : Word) (s : State) : State := s.withHost (.write .regs 0 (bytesOfWord w) :: s.host)

end Sys2Proof.Machine
end

