-- ==== Sys2Proof/Machine/Step.lean ====
section
/-! DEFINITION. One step: the host's next event, served to completion (00_scope.md R14, 20_memory.md R65). -/

namespace Sys2Proof.Machine

def step (s : State) : Host.Outcome State Fault Refusal := serveHost s

/-- The machine with the table word `w` as the host's next write of CMD: there is no program counter and no command memory
(10_state.md R25, 20_memory.md R68), commands are pushed. Bits above `nbits` are 0. Log entry 3. -/
def State.withFetchWord (s : State) (nbits w : Nat) : State := presentWord (BitVec.ofNat 32 (w % 2 ^ nbits)) s

end Sys2Proof.Machine
end

