-- ==== Sys2Proof/Machine/Stream.lean ====
section
/-! DEFINITION. Command lists and the stream pseudo-instructions (43_stream_macros.md). The controller never sees a
pseudo-instruction: the host issues its expansion (R160). -/

namespace Sys2Proof.Machine

/-- Commands executed one after another (00_scope.md R16, 60_exceptions.md R181). -/
def execAll : List Instr → State → Result
  | [], s => .next s
  | i :: is, s => andThen (exec i s) (execAll is)

/-- WRBYTES b0, …, b(n−1) (R161): one WRCH per byte, in order. -/
def wrbytes (bs : List Byte) : List Instr := bs.map Instr.wrch

/-- `strlen` (R163): the number of bytes before the first zero byte, if there is one. -/
def strlen : List Byte → Option Nat
  | [] => none
  | b :: bs => if b = 0#8 then some 0 else (strlen bs).map (· + 1)

/-- WRSTR (R162): WRBYTES of the bytes before the terminating zero; refused when there is none (R164, U4). -/
def wrstr (bs : List Byte) : Except Refusal (List Instr) :=
  match strlen bs with
  | some n => .ok (wrbytes (bs.take n))
  | none => .error .noTerminator

/-- The host about to issue a list of commands, before anything else it means to do. -/
def presentAll (is : List Instr) (s : State) : State :=
  s.withHost (is.map (fun i => HostEvent.write .regs 0 (bytesOfWord (encode i))) ++ s.host)

/-- `n` steps, stopping at the first fault or refusal. -/
def serveMany : Nat → State → Result
  | 0, s => .next s
  | n + 1, s => andThen (step s) (serveMany n)

end Sys2Proof.Machine
end

