-- ==== Sys2Proof/Machine/Assembler.lean ====
section
/-! DEFINITION. The assembler (30_encoding.md R94 to R96): lines of text to command words. -/

namespace Sys2Proof.Machine

/-- Why the assembler emits no word. -/
inductive AsmRefusal where
  /-- An operand outside the range of R94 (R96). -/
  | operandRange
  /-- A word that is no mnemonic of R94 or R95. -/
  | unknownMnemonic
  /-- A number, character or text not written as R94 says. -/
  | badToken
  /-- A mnemonic with operands it does not take. -/
  | badOperands
  deriving DecidableEq, Repr

/-- One line of R94 or R95, its operands as written. -/
inductive AsmLine where
  | init
  | clear
  | setcolor (attr : Int)
  | setcolorfb (fg bg : Int)
  | wrch (ch : Int)
  | wrchc (ch attr : Int)
  | setcursor (row col : Int)
  | wrbytes (bs : List Int)
  | wrstr (bs : List Int)
  deriving DecidableEq, Repr

/-- `lo ≤ v ≤ hi`. -/
abbrev inRange (lo hi v : Int) : Prop := lo ≤ v ∧ v ≤ hi

/-- The operand ranges of R94; a byte of R95 is 0 to 255. -/
abbrev AsmLine.rangesHold (l : AsmLine) : Prop :=
  match l with
  | .init => True
  | .clear => True
  | .setcolor attr => inRange 0 255 attr
  | .setcolorfb fg bg => inRange 0 15 fg ∧ inRange 0 15 bg
  | .wrch ch => inRange 0 255 ch
  | .wrchc ch attr => inRange 0 255 ch ∧ inRange 0 255 attr
  | .setcursor row col => inRange (-2048) 2047 row ∧ inRange (-2048) 2047 col
  | .wrbytes bs => ∀ b ∈ bs, inRange 0 255 b
  | .wrstr bs => ∀ b ∈ bs, inRange 0 255 b

/-- The operand ranges as a Bool. -/
def AsmLine.rangesCheck (l : AsmLine) : Bool :=
  match l with
  | .init => true
  | .clear => true
  | .setcolor attr => decide (inRange 0 255 attr)
  | .setcolorfb fg bg => decide (inRange 0 15 fg) && decide (inRange 0 15 bg)
  | .wrch ch => decide (inRange 0 255 ch)
  | .wrchc ch attr => decide (inRange 0 255 ch) && decide (inRange 0 255 attr)
  | .setcursor row col => decide (inRange (-2048) 2047 row) && decide (inRange (-2048) 2047 col)
  | .wrbytes bs => bs.all fun b => decide (inRange 0 255 b)
  | .wrstr bs => bs.all fun b => decide (inRange 0 255 b)

/-- The commands a line stands for. WRSTR's terminating zero is appended by the assembler (R95), so the prefix before the
first zero always exists. -/
def AsmLine.commands (l : AsmLine) : List Instr :=
  match l with
  | .init => [.init]
  | .clear => [.clear]
  | .setcolor attr => [.setcolor (BitVec.ofInt 8 attr)]
  | .setcolorfb fg bg => [.setcolorfb (BitVec.ofInt 4 fg) (BitVec.ofInt 4 bg)]
  | .wrch ch => [.wrch (BitVec.ofInt 8 ch)]
  | .wrchc ch attr => [.wrchc (BitVec.ofInt 8 ch) (BitVec.ofInt 8 attr)]
  | .setcursor row col => [.setcursor row col]
  | .wrbytes bs => Sys2Proof.Machine.wrbytes (bs.map (BitVec.ofInt 8))
  | .wrstr bs =>
    match Sys2Proof.Machine.wrstr (bs.map (BitVec.ofInt 8) ++ [0#8]) with
    | .ok is => is
    | .error _ => []

/-- The words of a line, or the refusal of R96. -/
def AsmLine.words (l : AsmLine) : Except AsmRefusal (List Word) :=
  if l.rangesCheck then .ok (l.commands.map encode) else .error .operandRange

/-! The text of a line. Blank space and the minus sign of a coordinate are as log entry 12 says. -/

/-- A token of a line. -/
inductive Token where
  | name (cs : List Char)
  | number (v : Int)
  | comma
  | text (bs : List Int)
  deriving DecidableEq, Repr

/-- The single quote, the double quote and the backslash of R94. -/
def quote1 : Char := Char.ofNat 0x27
def quote2 : Char := Char.ofNat 0x22
def backslash : Char := Char.ofNat 0x5C

/-- The escapes of R94: `\n`, `\r`, `\0`, `\\`, `\'`. -/
def escapeValue (c : Char) : Option Int :=
  if c = 'n' then some Config.chNewline.toNat
  else if c = 'r' then some Config.chCr.toNat
  else if c = '0' then some 0
  else if c = backslash then some 0x5C
  else if c = quote1 then some 0x27
  else none

/-- The value of a digit in base 16. -/
def digitValue (c : Char) : Option Nat :=
  let n := c.toNat
  if 0x30 ≤ n ∧ n ≤ 0x39 then some (n - 0x30)
  else if 0x61 ≤ n ∧ n ≤ 0x66 then some (n - 0x61 + 10)
  else if 0x41 ≤ n ∧ n ≤ 0x46 then some (n - 0x41 + 10)
  else none

/-- The number digits make in a base, continuing from `acc`. -/
def digitsValue (base : Nat) : Nat → List Char → Option Nat
  | acc, [] => some acc
  | acc, c :: cs =>
    match digitValue c with
    | some d => if d < base then digitsValue base (acc * base + d) cs else none
    | none => none

/-- A number with no sign: decimal, or hexadecimal after `0x` (R94). -/
def unsignedValue (cs : List Char) : Option Nat :=
  match cs with
  | [] => none
  | ['0', 'x'] => none
  | '0' :: 'x' :: ds => digitsValue 16 0 ds
  | ds => digitsValue 10 0 ds

/-- A run of characters as a token: a number, signed or not, or a name. -/
def runToken (cs : List Char) : Except AsmRefusal Token :=
  match cs with
  | [] => .error .badToken
  | c :: ds =>
    if c = '-' then
      match unsignedValue ds with
      | some n => .ok (.number (-(n : Int)))
      | none => .error .badToken
    else if 0x30 ≤ c.toNat ∧ c.toNat ≤ 0x39 then
      match unsignedValue cs with
      | some n => .ok (.number n)
      | none => .error .badToken
    else .ok (.name cs)

/-- Where the lexer stands in a line. -/
inductive LexMode where
  | gap
  | run (acc : List Char)
  | char
  | charEscape
  | charEnd (v : Int)
  | text (acc : List Int)
  | textEscape (acc : List Int)
  deriving DecidableEq, Repr

/-- A token before the rest of a line. -/
def consToken (t : Except AsmRefusal Token) (rest : Except AsmRefusal (List Token)) : Except AsmRefusal (List Token) :=
  match t, rest with
  | .ok t, .ok ts => .ok (t :: ts)
  | .error e, _ => .error e
  | _, .error e => .error e

/-- The tokens of a line; `;` outside a literal starts a comment (R94). DESIGN CHOICE, log entry 12: a quoted character of
any code, above 255 too, is the number of its code, and only the range of the operand it stands for (R94, R96) refuses it; so
one of code 256 to 2047 is a legal coordinate of SETCURSOR and nothing else. Unsafe for claims about such text. -/
def lex : List Char → LexMode → Except AsmRefusal (List Token)
  | [], .gap => .ok []
  | [], .run acc => consToken (runToken acc) (.ok [])
  | [], _ => .error .badToken
  | c :: cs, .gap =>
    if c = ';' then .ok []
    else if c = ' ' ∨ c = '\t' then lex cs .gap
    else if c = ',' then consToken (.ok .comma) (lex cs .gap)
    else if c = quote1 then lex cs .char
    else if c = quote2 then lex cs (.text [])
    else lex cs (.run [c])
  | c :: cs, .run acc =>
    if c = ';' then consToken (runToken acc) (.ok [])
    else if c = ' ' ∨ c = '\t' then consToken (runToken acc) (lex cs .gap)
    else if c = ',' then consToken (runToken acc) (consToken (.ok .comma) (lex cs .gap))
    else if c = quote1 ∨ c = quote2 then .error .badToken
    else lex cs (.run (acc ++ [c]))
  | c :: cs, .char =>
    if c = backslash then lex cs .charEscape
    else if c = quote1 then .error .badToken
    else lex cs (.charEnd c.toNat)
  | c :: cs, .charEscape =>
    match escapeValue c with
    | some v => lex cs (.charEnd v)
    | none => .error .badToken
  | c :: cs, .charEnd v => if c = quote1 then consToken (.ok (.number v)) (lex cs .gap) else .error .badToken
  | c :: cs, .text acc =>
    if c = quote2 then consToken (.ok (.text acc)) (lex cs .gap)
    else if c = backslash then lex cs (.textEscape acc)
    else lex cs (.text (acc ++ [(c.toNat : Int)]))
  | c :: cs, .textEscape acc =>
    match escapeValue c with
    | some v => lex cs (.text (acc ++ [v]))
    | none => .error .badToken

/-- Numbers separated by commas. -/
def operandList : List Token → Except AsmRefusal (List Int)
  | [] => .ok []
  | [.number v] => .ok [v]
  | .number v :: .comma :: ts =>
    if ts.isEmpty then .error .badOperands
    else
      match operandList ts with
      | .ok vs => .ok (v :: vs)
      | .error e => .error e
  | _ => .error .badOperands

/-- The byte list of a stream pseudo-instruction: a quoted text, or numbers (R95). -/
def streamOperands : List Token → Except AsmRefusal (List Int)
  | [.text bs] => .ok bs
  | ts => operandList ts

/-- The mnemonics of R94 and R95, in lower case. -/
inductive Mnemonic where
  | init | clear | setcolor | setcolorfb | wrch | wrchc | setcursor | wrbytes | wrstr
  deriving DecidableEq, Repr

/-- Their spelling. -/
def mnemonicOf (cs : List Char) : Option Mnemonic :=
  if cs = ['i', 'n', 'i', 't'] then some .init
  else if cs = ['c', 'l', 'e', 'a', 'r'] then some .clear
  else if cs = ['s', 'e', 't', 'c', 'o', 'l', 'o', 'r'] then some .setcolor
  else if cs = ['s', 'e', 't', 'c', 'o', 'l', 'o', 'r', 'f', 'b'] then some .setcolorfb
  else if cs = ['w', 'r', 'c', 'h'] then some .wrch
  else if cs = ['w', 'r', 'c', 'h', 'c'] then some .wrchc
  else if cs = ['s', 'e', 't', 'c', 'u', 'r', 's', 'o', 'r'] then some .setcursor
  else if cs = ['w', 'r', 'b', 'y', 't', 'e', 's'] then some .wrbytes
  else if cs = ['w', 'r', 's', 't', 'r'] then some .wrstr
  else none

/-- A mnemonic with its numeric operands. -/
def plainLine (m : Mnemonic) (vs : List Int) : Except AsmRefusal AsmLine :=
  match m, vs with
  | .init, [] => .ok .init
  | .clear, [] => .ok .clear
  | .setcolor, [a] => .ok (.setcolor a)
  | .setcolorfb, [f, b] => .ok (.setcolorfb f b)
  | .wrch, [c] => .ok (.wrch c)
  | .wrchc, [c, a] => .ok (.wrchc c a)
  | .setcursor, [r, c] => .ok (.setcursor r c)
  | _, _ => .error .badOperands

/-- The line its tokens make; none for a line with nothing but a comment. -/
def lineOf (ts : List Token) : Except AsmRefusal (Option AsmLine) :=
  match ts with
  | [] => .ok none
  | .name cs :: args =>
    match mnemonicOf cs with
    | none => .error .unknownMnemonic
    | some .wrbytes =>
      match streamOperands args with
      | .ok bs => .ok (some (.wrbytes bs))
      | .error e => .error e
    | some .wrstr =>
      match streamOperands args with
      | .ok bs => .ok (some (.wrstr bs))
      | .error e => .error e
    | some m =>
      match operandList args with
      | .ok vs =>
        match plainLine m vs with
        | .ok l => .ok (some l)
        | .error e => .error e
      | .error e => .error e
  | _ => .error .unknownMnemonic

/-- One line of text to its words (R94 to R96). -/
def assembleLine (cs : List Char) : Except AsmRefusal (List Word) :=
  match lex cs .gap with
  | .error e => .error e
  | .ok ts =>
    match lineOf ts with
    | .error e => .error e
    | .ok none => .ok []
    | .ok (some l) => l.words

/-- A program, one command a line (R94): the words of its lines in order, or the first refusal. -/
def assemble : List (List Char) → Except AsmRefusal (List Word)
  | [] => .ok []
  | l :: ls =>
    match assembleLine l, assemble ls with
    | .ok ws, .ok rest => .ok (ws ++ rest)
    | .error e, _ => .error e
    | _, .error e => .error e

end Sys2Proof.Machine
end

