-- ==== Sys2Proof/Machine/Bus.lean ====
section
/-! DEFINITION. The host's physical addresses (20_memory.md R50, R53): how the platform's open parameters (00_scope.md R7) turn a
bus access into an event at CCDC's port. No rule of the controller depends on the parameters (R54). -/

namespace Sys2Proof

open Machine

/-- An access of the host to a physical byte address. -/
inductive BusAccess where
  | read (addr bytes : Nat)
  | write (addr : Nat) (data : List Byte)
  deriving DecidableEq, Repr

/-- The region an address lies in, and its offset there (R50). -/
def Layout.locate (L : Layout) (addr : Nat) : Option (Region × Nat) :=
  if L.gridBase ≤ addr ∧ addr < L.gridBase + Config.gridBytes then some (.grid, addr - L.gridBase)
  else if L.regBase ≤ addr ∧ addr < L.regBase + Config.regBytes then some (.regs, addr - L.regBase)
  else none

/-- The event an access is at CCDC's port. An address of neither region does not reach it (R50); an access that is not
naturally aligned is outside the interface (R56, U8). -/
def Layout.event (L : Layout) (a : BusAccess) : Except Refusal HostEvent :=
  match a with
  | .read addr bytes =>
    match L.locate addr with
    | none => .error (.notThisDevice addr)
    | some (region, offset) =>
      if addr % bytes = 0 then .ok (.read region offset bytes) else .error (.accessShape region offset bytes)
  | .write addr data =>
    match L.locate addr with
    | none => .error (.notThisDevice addr)
    | some (region, offset) =>
      if addr % data.length = 0 then .ok (.write region offset data)
      else .error (.accessShape region offset data.length)

/-- One bus access served to completion. -/
def Layout.serve (L : Layout) (a : BusAccess) (s : State) : Result :=
  match L.event a with
  | .ok e => hostEvent e s
  | .error r => .refused r

/-- `MemRead(addr, n)` of 00_scope.md R11 on the grid: `n` bytes from a byte address on, lowest address first. -/
def Layout.memRead (L : Layout) (m : Memory) : Nat → Nat → Option (List Byte)
  | _, 0 => some []
  | addr, n + 1 =>
    match L.locate addr with
    | some (.grid, offset) =>
      match m.read offset, Layout.memRead L m (addr + 1) n with
      | some b, some bs => some (b :: bs)
      | _, _ => none
    | _ => none

end Sys2Proof
end

