-- ==== Sys2Proof/Machine/Display.lean ====
section
/-! DEFINITION. What the display sees (00_scope.md R12c, R16; 20_memory.md R62, R63, R66). The display changes no state, so it is
a function of the access log. -/

namespace Sys2Proof.Machine

/-- The store trace of a list of accesses: its `GridWrite` pairs in order (R16). -/
def storesOf : List CellAccess → List (Nat × GridCell)
  | [] => []
  | .read _ _ :: l => storesOf l
  | .write i v :: l => (i, v) :: storesOf l

/-- The `GridRead` pairs in order (R62, 70_reset_and_hazards.md R202). -/
def readsOf : List CellAccess → List (Nat × GridCell)
  | [] => []
  | .read i v :: l => (i, v) :: readsOf l
  | .write _ _ :: l => readsOf l

/-- The grid after the stores of a trace, each visible before the next (R63). -/
def replay (m : Memory) : List (Nat × GridCell) → Memory
  | [] => m
  | (i, v) :: l => replay (m.setCell i v) l

/-- Every read of the log returns what the latest earlier store to its cell left, or what the grid held at the start
(R62). -/
def readsAgree (m : Memory) : List CellAccess → Prop
  | [] => True
  | .read i v :: l => m.readCell i = some v ∧ readsAgree m l
  | .write i v :: l => readsAgree (m.setCell i v) l

/-- What the display may sample while accesses `l` run from the grid `m`: the grid after the first `k` stores (R63,
D21). -/
def displayView (m : Memory) (l : List CellAccess) (k : Nat) : Memory := replay m ((storesOf l).take k)

/-- The accesses the controller performed between two states of a run. -/
def accessesSince (s t : State) : List CellAccess := t.log.drop s.log.length

end Sys2Proof.Machine
end

