-- ==== Sys2Proof/Safety.lean ====
section
/-! DEFINITION. The terms claims are stated in: states at rest (10_state.md R31), equal spec states (00_scope.md R13), what each
kind of command does, and how much work it is (70_reset_and_hazards.md R202). -/

namespace Sys2Proof.Machine

/-- At rest (R31): the cursor is on the grid, and the grid is whole. -/
abbrev State.AtRest (s : State) : Prop :=
  s.row.toNat < Config.rows ∧ s.col.toNat < Config.columns ∧ s.mem.wf

/-- Equal in the spec's `S = (row, col, color, G)` (R13). -/
abbrev SameS (s t : State) : Prop := t.row = s.row ∧ t.col = s.col ∧ t.color = s.color ∧ t.mem = s.mem

/-- What no command changes: the host's side and the reset count. -/
abbrev HostSideKept (s t : State) : Prop := t.host = s.host ∧ t.observed = s.observed ∧ t.resets = s.resets

/-- `G[i]`. -/
abbrev State.cell (s : State) (i : Nat) : Option GridCell := s.mem.readCell i

/-- Every byte of memory reads as before. -/
abbrev MemoryKept (s t : State) : Prop := ∀ a, t.mem.read a = s.mem.read a

/-- No access was made and no scroll invoked. -/
abbrev NoAccess (s t : State) : Prop := t.log = s.log ∧ t.scrolls = s.scrolls

/-- A fill ended in `t` (R128): every cell `v`, 2000 stores in ascending index, no read, no scroll. -/
abbrev FillEffect (v : GridCell) (s t : State) : Prop :=
  (∀ i, i < Config.cells → t.cell i = some v) ∧ t.scrolls = s.scrolls ∧
  ∃ l, t.log = s.log ++ l ∧ storesOf l = (List.range Config.cells).map (fun i => (i, v)) ∧ readsOf l = []

/-- One SCROLL took the grid `g` to `t`'s (R126), after the accesses `before`: rows up by one, last row blank in the
colour `c`; then 1920 copies in ascending index and 80 blanks in ascending index. -/
abbrev ScrollEffect (c : Byte) (g : Memory) (before : List CellAccess) (s t : State) : Prop :=
  (∀ i, i < lastRow → t.cell i = g.readCell (i + Config.columns)) ∧
  (∀ i, lastRow ≤ i → i < Config.cells → t.cell i = some (blank c)) ∧
  t.scrolls = s.scrolls + 1 ∧
  ∃ l, t.log = s.log ++ before ++ l ∧
    (storesOf l).map Prod.fst = List.range Config.cells ∧ (∀ p ∈ storesOf l, t.cell p.1 = some p.2) ∧
    (readsOf l).map Prod.fst = (List.range lastRow).map (· + Config.columns) ∧
    (∀ p ∈ readsOf l, g.readCell p.1 = some p.2)

/-- The effect of ADVANCE on a newline from rest (R121). -/
abbrev NewlineEffect (s t : State) : Prop :=
  t.col = 0#7 ∧ t.color = s.color ∧ HostSideKept s t ∧
  (s.row.toNat < 24 → t.row.toNat = s.row.toNat + 1 ∧ MemoryKept s t ∧ NoAccess s t) ∧
  (s.row.toNat = 24 → t.row.toNat = 24 ∧ ScrollEffect s.color s.mem [] s t)

/-- The effect of ADVANCE on a carriage return (R122). -/
abbrev ReturnEffect (s t : State) : Prop :=
  t.col = 0#7 ∧ t.row = s.row ∧ t.color = s.color ∧ HostSideKept s t ∧ MemoryKept s t ∧ NoAccess s t

/-- The cell a printable character of state `s` is stored to, and its value (R123, R125). -/
abbrev State.target (s : State) : Nat := idx s.row.toNat s.col.toNat

/-- The effect of a printable character that does not scroll: one cell stored, every byte outside it kept (R123 a, b). -/
abbrev StoreEffect (ch : Byte) (s t : State) : Prop :=
  t.cell s.target = some (encodeCell ch s.color) ∧
  (∀ a, a ≠ cellOffset s.target → a ≠ cellOffset s.target + 1 → t.mem.read a = s.mem.read a) ∧
  t.scrolls = s.scrolls ∧ t.log = s.log ++ [.write s.target (encodeCell ch s.color)]

/-- The effect of ADVANCE on a printable character from rest (R123): the three cases of its corner cases (a), (b), (c). -/
abbrev PrintableEffect (ch : Byte) (s t : State) : Prop :=
  t.color = s.color ∧ HostSideKept s t ∧
  (s.col.toNat < 79 → t.col.toNat = s.col.toNat + 1 ∧ t.row = s.row ∧ StoreEffect ch s t) ∧
  (s.col.toNat = 79 → s.row.toNat < 24 → t.col = 0#7 ∧ t.row.toNat = s.row.toNat + 1 ∧ StoreEffect ch s t) ∧
  (s.col.toNat = 79 → s.row.toNat = 24 → t.col = 0#7 ∧ t.row.toNat = 24 ∧
    t.cell 1919 = some (encodeCell ch s.color) ∧
    ScrollEffect s.color (s.mem.setCell 1999 (encodeCell ch s.color)) [.write 1999 (encodeCell ch s.color)] s t)

/-- The effect of ADVANCE (R120): the three classes are disjoint and cover every code. -/
abbrev CharEffect (ch : Byte) (s t : State) : Prop :=
  (ch = 0x0A#8 → NewlineEffect s t) ∧ (ch = 0x0D#8 → ReturnEffect s t) ∧
  (ch ≠ 0x0A#8 → ch ≠ 0x0D#8 → PrintableEffect ch s t)

/-- Cell writes of a character written from `s` (R202). -/
def charWrites (ch : Byte) (s : State) : Nat :=
  if ch = 0x0A#8 then (if s.row.toNat < 24 then 0 else 2000)
  else if ch = 0x0D#8 then 0
  else if s.row.toNat = 24 ∧ s.col.toNat = 79 then 2001 else 1

/-- Cell reads of a character written from `s` (R202). -/
def charReads (ch : Byte) (s : State) : Nat :=
  if ch = 0x0A#8 then (if s.row.toNat < 24 then 0 else 1920)
  else if ch = 0x0D#8 then 0
  else if s.row.toNat = 24 ∧ s.col.toNat = 79 then 1920 else 0

/-- The cell writes of R202's table. -/
def workWrites (i : Instr) (s : State) : Nat :=
  match i with
  | .init => 2000
  | .clear => 2000
  | .setcolor _ => 0
  | .setcolorfb _ _ => 0
  | .wrch ch => charWrites ch s
  | .wrchc ch _ => charWrites ch s
  | .setcursor _ _ => 0

/-- The cell reads of R202's table. -/
def workReads (i : Instr) (s : State) : Nat :=
  match i with
  | .init => 0
  | .clear => 0
  | .setcolor _ => 0
  | .setcolorfb _ _ => 0
  | .wrch ch => charReads ch s
  | .wrchc ch _ => charReads ch s
  | .setcursor _ _ => 0

/-- The grid is the reset grid with the store trace replayed over it, and every read of the log was answered by the grid of
its moment (R16, R62, R63). -/
abbrev State.LogFaithful (s : State) : Prop :=
  replay (resetMemory s.resets) (storesOf s.log) = s.mem ∧ readsAgree (resetMemory s.resets) s.log

/-- A printable code: neither newline nor carriage return (00_scope.md, glossary). -/
abbrev printable (ch : Byte) : Prop := ch ≠ 0x0A#8 ∧ ch ≠ 0x0D#8

/-- The host's next event is a command written to CMD, or hardware reset. -/
abbrev State.NextIsCommandOrReset (s : State) : Prop :=
  ∃ rest, s.host = .reset :: rest ∨
    ∃ (w : Word) (i : Instr), s.host = .write .regs 0 (bytesOfWord w) :: rest ∧ decode w = .ok i

/-- A step that does not stop. -/
abbrev Continues (r : Result) : Prop := ∃ t, r = .next t

end Sys2Proof.Machine
end

