-- ==== Sys2Proof/Certificates/Slice0/Obligations.lean ====
section
/-! DEFINITION. The statements for the provers, in the order of the spec's files. Each docstring names the rule it formalises;
what rests on a choice of the model names its log entry. -/

open Sys2Proof Sys2Proof.Machine

/-! 30_encoding.md: words and commands. -/

/-- R83: the opcode map, row by row; no word matches two rows; a word is the command of the row it matches. -/
def Obligations.OpcodeMapRowsAreDisjoint : Prop :=
  opRows.map (fun r => (r.mnemonic, r.pattern, r.mask)) =
    [("INIT", 0x01000000#32, 0xFFFFFFFF#32), ("CLEAR", 0x02000000#32, 0xFFFFFFFF#32),
     ("SETCOLOR", 0x03000000#32, 0xFFFFFF00#32), ("SETCOLORFB", 0x04000000#32, 0xFFFFF0F0#32),
     ("WRCH", 0x05000000#32, 0xFFFFFF00#32), ("WRCHC", 0x05010000#32, 0xFFFF0000#32),
     ("SETCURSOR", 0x06000000#32, 0xFF000000#32)] ∧
  (∀ (w : Word) (r r' : OpRow), r ∈ opRows → r' ∈ opRows → w &&& r.mask = r.pattern → w &&& r'.mask = r'.pattern → r = r') ∧
  (∀ (w : Word) (i : Instr), decode w = .ok i → i.row ∈ opRows ∧ w &&& i.row.mask = i.row.pattern) ∧
  (∀ (w : Word) (r : OpRow), r ∈ opRows → w &&& r.mask = r.pattern → ∃ i, decode w = .ok i ∧ i.row = r)

/-- R90: both formulations of decoding, by the rows of R83 and by cases of `op` and the must-be-0 bits; the word that
matches runs its command, the word that matches no row runs as nothing. Decoding reads no state. -/
def Obligations.DecodeIsByOpcodeCases : Prop :=
  (∀ w : Word, decode w =
    if w.extractLsb' 24 8 = 0x01#8 ∧ w.extractLsb' 0 24 = 0#24 then .ok .init
    else if w.extractLsb' 24 8 = 0x02#8 ∧ w.extractLsb' 0 24 = 0#24 then .ok .clear
    else if w.extractLsb' 24 8 = 0x03#8 ∧ w.extractLsb' 8 16 = 0#16 then .ok (.setcolor (w.extractLsb' 0 8))
    else if w.extractLsb' 24 8 = 0x04#8 ∧ w.extractLsb' 12 12 = 0#12 ∧ w.extractLsb' 4 4 = 0#4 then
      .ok (.setcolorfb (w.extractLsb' 0 4) (w.extractLsb' 8 4))
    else if w.extractLsb' 24 8 = 0x05#8 ∧ w.extractLsb' 16 8 = 0x00#8 ∧ w.extractLsb' 8 8 = 0#8 then
      .ok (.wrch (w.extractLsb' 0 8))
    else if w.extractLsb' 24 8 = 0x05#8 ∧ w.extractLsb' 16 8 = 0x01#8 then
      .ok (.wrchc (w.extractLsb' 0 8) (w.extractLsb' 8 8))
    else if w.extractLsb' 24 8 = 0x06#8 then .ok (.setcursor (w.extractLsb' 12 12).toInt (w.extractLsb' 0 12).toInt)
    else .error (reservedReason w)) ∧
  (∀ w : Word, (∃ r, decode w = .error r) ↔ ∀ row ∈ opRows, w &&& row.mask ≠ row.pattern) ∧
  (∀ (w : Word) (i : Instr) (s : State), decode w = .ok i → w &&& i.row.mask = i.row.pattern ∧ runWord w s = exec i s) ∧
  (∀ (w : Word) (r : Reserved) (s : State), decode w = .error r → runWord w s = .next s)

/-- R91: exactly these words are reserved, and the controller executes each as nothing: the whole state is as before, the
trace is empty, the word is consumed and the next event is accepted. -/
def Obligations.ReservedWordsAreIgnored : Prop :=
  (∀ w : Word, (∃ r, decode w = .error r) ↔
    (w.extractLsb' 24 8 = 0x00#8 ∨ 7 ≤ (w.extractLsb' 24 8).toNat ∨
     ((w.extractLsb' 24 8 = 0x01#8 ∨ w.extractLsb' 24 8 = 0x02#8) ∧ w.extractLsb' 0 24 ≠ 0#24) ∨
     (w.extractLsb' 24 8 = 0x03#8 ∧ w.extractLsb' 8 16 ≠ 0#16) ∨
     (w.extractLsb' 24 8 = 0x04#8 ∧ (w.extractLsb' 12 12 ≠ 0#12 ∨ w.extractLsb' 4 4 ≠ 0#4)) ∨
     (w.extractLsb' 24 8 = 0x05#8 ∧
       (w.extractLsb' 17 7 ≠ 0#7 ∨ (w.extractLsb' 16 1 = 0#1 ∧ w.extractLsb' 8 8 ≠ 0#8))))) ∧
  (∀ (w : Word) (r : Reserved) (s : State), decode w = .error r → runWord w s = .next s ∧ step (presentWord w s) = .next s)

/-- R84 to R89, R94: no bit of an encoding is dropped; every operand at every value its field admits. -/
def Obligations.DecodeOfEncodeIsTheCommand : Prop :=
  ∀ i : Instr, i.wellFormed → decode (encode i) = .ok i

/-- R83, D2: each command word stands for one command, so encoding what was decoded gives the word back. -/
def Obligations.EncodeOfDecodeIsTheWord : Prop :=
  ∀ (w : Word) (i : Instr), decode w = .ok i → encode i = w ∧ i.wellFormed

/-- 95_test_vectors.md V-D1 to V-D17: words written out from R82's formats decode to their commands. -/
def Obligations.SpecWordsDecode : Prop :=
  decode 0b00000001000000000000000000000000#32 = .ok .init ∧
  decode 0b00000010000000000000000000000000#32 = .ok .clear ∧
  decode 0b00000011000000000000000001001110#32 = .ok (.setcolor 0x4E#8) ∧
  decode 0b00000100000000000000010000001110#32 = .ok (.setcolorfb 14#4 4#4) ∧
  decode 0b00000101000000000000000001000001#32 = .ok (.wrch 0x41#8) ∧
  decode 0b00000101000000010001111101011010#32 = .ok (.wrchc 0x5A#8 0x1F#8) ∧
  decode 0b00000110000000011001000001010000#32 = .ok (.setcursor 25 80) ∧
  decode 0b00000110011111111111100000000000#32 = .ok (.setcursor 2047 (-2048))

/-- R55, R80, R93: a register's byte 0 is its bits 7:0, its byte 3 its bits 31:24, and a command is exactly four bytes. -/
def Obligations.CommandBytesAreLittleEndian : Prop :=
  (∀ w : Word, bytesOfWord w = [w.extractLsb' 0 8, w.extractLsb' 8 8, w.extractLsb' 16 8, w.extractLsb' 24 8] ∧
    wordOf? (bytesOfWord w) = some w ∧ decodeBytes (bytesOfWord w) = decode w) ∧
  (∀ b0 b1 b2 b3 : Byte, wordOf? [b0, b1, b2, b3] = some (wordOfBytes b0 b1 b2 b3) ∧
    (wordOfBytes b0 b1 b2 b3).extractLsb' 0 8 = b0 ∧ (wordOfBytes b0 b1 b2 b3).extractLsb' 8 8 = b1 ∧
    (wordOfBytes b0 b1 b2 b3).extractLsb' 16 8 = b2 ∧ (wordOfBytes b0 b1 b2 b3).extractLsb' 24 8 = b3) ∧
  (∀ bs : List Byte, bs.length ≠ 4 → decodeBytes bs = .error (.notOneWord bs.length))

/-! 00_scope.md, 10_state.md: the step, the host port. -/

/-- R14, R37: when the host's next event writes a word to CMD that decodes to `i`, the step is `exec i` at the state with
that event taken. The events' list is the model's own (log entry 3). -/
def Obligations.StepRunsTheDecodedCommand : Prop :=
  (∀ (s : State) (w : Word) (rest : List HostEvent) (i : Instr),
    s.host = .write .regs 0 (bytesOfWord w) :: rest → decode w = .ok i → step s = exec i (s.withHost rest)) ∧
  (∀ (s : State) (w : Nat) (i : Instr), w < 2 ^ 32 → decode (BitVec.ofNat 32 w) = .ok i →
    step (s.withFetchWord 32 w) = exec i s)

/-- The model's own choice (log entry 3): with no event of the host the step changes nothing. -/
def Obligations.StepWithoutHostEventKeepsState : Prop :=
  ∀ s : State, s.host = [] → step s = .next s

/-- R14: the outcome of a command depends on nothing but the command and `S = (row, col, color, G)`; the accesses appended
to the log and the scrolls counted are the same too. -/
def Obligations.OutcomeDependsOnlyOnCommandAndS : Prop :=
  ∀ (i : Instr) (s s' : State), SameS s s' →
    (∀ t, exec i s = .next t → ∃ t' l, exec i s' = .next t' ∧ SameS t t' ∧
      t.log = s.log ++ l ∧ t'.log = s'.log ++ l ∧ t.scrolls + s'.scrolls = t'.scrolls + s.scrolls) ∧
    (∀ e, exec i s = .fault e → exec i s' = .fault e) ∧
    (∀ e, exec i s ≠ .refused e)

/-- R14, R15, R170: from rest every command, and every command word, answers a next state, which is at rest. -/
def Obligations.EveryCommandCompletesFromRest : Prop :=
  ∀ s : State, s.AtRest →
    (∀ i : Instr, ∃ t, exec i s = .next t ∧ t.AtRest) ∧ (∀ w : Word, ∃ t, runWord w s = .next t ∧ t.AtRest)

/-- R15, R170: no event of the host makes a step from rest fault. -/
def Obligations.StepFromRestNeverFaults : Prop :=
  ∀ (s : State) (e : Fault), s.AtRest → step s ≠ .fault e

/-- R31: every step keeps the invariant at rest, with the grid whole. -/
def Obligations.StepKeepsRest : Prop :=
  ∀ s t : State, s.AtRest → step s = .next t → t.AtRest

/-- R31 and R62 at power-on reset: the cursor is on the grid, the grid is whole, the (empty) trace is faithful. -/
def Obligations.InvariantsHoldAtReset : Prop :=
  State.reset.AtRest ∧ State.reset.LogFaithful

/-- R16, R62, R63: every step keeps the grid equal to the reset grid with the store trace replayed over it, and every read
of the log answered by the grid of its moment. -/
def Obligations.StepKeepsLogFaithful : Prop :=
  ∀ s t : State, s.LogFaithful → step s = .next t → t.LogFaithful

/-- R16, R62: from any whole grid, a command's accesses replayed over the old grid give the new one, each read returning
the latest earlier store; the display's last sample is the new grid (R63). -/
def Obligations.TraceReplaysToTheGrid : Prop :=
  ∀ (i : Instr) (s t : State), s.mem.wf → exec i s = .next t →
    ∃ l, t.log = s.log ++ l ∧ replay s.mem (storesOf l) = t.mem ∧ readsAgree s.mem l ∧
      displayView s.mem l (storesOf l).length = t.mem ∧ accessesSince s t = l

/-- R37: a 32-bit write of CMD executes its word, all 32 bits; a read of CMD returns 0 and has no effect. -/
def Obligations.CmdWriteExecutesAndReadsZero : Prop :=
  ∀ s : State,
    (∀ (w : Word) (i : Instr), decode w = .ok i → hostWrite .regs 0 (bytesOfWord w) s = exec i s) ∧
    (∀ (w : Word) (r : Reserved), decode w = .error r → hostWrite .regs 0 (bytesOfWord w) s = .next s) ∧
    hostRead .regs 0 4 s = .next (s.observe (.word 0#32))

/-- R38: CURSOR's fields, its reserved bits, its value after reset, and a write of it ignored; no step but one that serves a
command (or hardware reset, R190) moves the cursor. -/
def Obligations.CursorRegisterViewsTheCursor : Prop :=
  (∀ s : State, ∃ v : Word, hostRead .regs 4 4 s = .next (s.observe (.word v)) ∧
    v.extractLsb' 13 19 = 0#19 ∧ v.extractLsb' 8 5 = s.row ∧ v.extractLsb' 7 1 = 0#1 ∧ v.extractLsb' 0 7 = s.col ∧
    (s.AtRest → (v.extractLsb' 8 5).toNat ≤ 24 ∧ (v.extractLsb' 0 7).toNat ≤ 79)) ∧
  (∀ (s : State) (w : Word), hostWrite .regs 4 (bytesOfWord w) s = .next s) ∧
  (∀ s t : State, step s = .next t → t.row ≠ s.row ∨ t.col ≠ s.col → s.NextIsCommandOrReset) ∧
  cursorReg State.reset = 0x00000000#32

/-- R39: COLOR's fields, its reserved bits, its value after reset, and a write of it ignored; no step but one that serves a
command (or hardware reset, R190) changes the colour. -/
def Obligations.ColorRegisterViewsTheColour : Prop :=
  (∀ s : State, ∃ v : Word, hostRead .regs 8 4 s = .next (s.observe (.word v)) ∧
    v.extractLsb' 8 24 = 0#24 ∧ v.extractLsb' 4 4 = bgOf s.color ∧ v.extractLsb' 0 4 = fgOf s.color) ∧
  (∀ (s : State) (w : Word), hostWrite .regs 8 (bytesOfWord w) s = .next s) ∧
  (∀ s t : State, step s = .next t → t.color ≠ s.color → s.NextIsCommandOrReset) ∧
  colorReg State.reset = 0x00000007#32

/-- R40, R60, U5, U8: an access of the register block is served exactly when it is a 32-bit one at 0x0, 0x4 or 0x8; a host
write of the grid is refused. -/
def Obligations.OtherHostAccessesAreRefused : Prop :=
  (∀ (s : State) (o n : Nat), ¬(n = 4 ∧ (o = 0 ∨ o = 4 ∨ o = 8)) →
    hostRead .regs o n s = .refused (.accessShape .regs o n)) ∧
  (∀ (s : State) (o : Nat), (o = 0 ∨ o = 4 ∨ o = 8) → ∃ d, hostRead .regs o 4 s = .next (s.observe d)) ∧
  (∀ (s : State) (o : Nat) (data : List Byte), ¬(data.length = 4 ∧ (o = 0 ∨ o = 4 ∨ o = 8)) →
    hostWrite .regs o data s = .refused (.accessShape .regs o data.length)) ∧
  (∀ (s : State) (o : Nat) (data : List Byte), hostWrite .grid o data s = .refused (.hostWritesGrid o))

/-! 20_memory.md: addresses, host reads of the grid. -/

/-- R52 (its bijection derived by the spec from R51): the index mapping is a bijection between the 25 × 80 coordinate pairs
and 0 to 1999. -/
def Obligations.CellIndexIsBijective : Prop :=
  (∀ r c : Nat, r < 25 → c < 80 → idx r c = 80 * r + c ∧ idx r c ≤ 1999 ∧ idx r c / 80 = r ∧ idx r c % 80 = c) ∧
  (∀ i : Nat, i < 2000 → i / 80 < 25 ∧ i % 80 < 80 ∧ idx (i / 80) (i % 80) = i)

/-- R50, R53, R11: on every platform that meets R7's constraints, the cell of `(r, c)` is at `GRID_BASE + 160 r + 2 c`, glyph
first; the registers are at `REG_BASE`; no other address reaches CCDC. -/
def Obligations.PhysicalAddressesReachTheirCells : Prop :=
  ∀ L : Layout, L.Valid →
    (∀ r c : Nat, r < 25 → c < 80 →
      L.locate (L.gridBase + 160 * r + 2 * c) = some (.grid, cellOffset (idx r c)) ∧
      L.locate (L.gridBase + 160 * r + 2 * c + 1) = some (.grid, cellOffset (idx r c) + 1)) ∧
    (∀ k : Nat, k < 12 → L.locate (L.regBase + k) = some (.regs, k)) ∧
    (∀ a : Nat, ¬(L.gridBase ≤ a ∧ a ≤ L.gridBase + 3999) → ¬(L.regBase ≤ a ∧ a < L.regBase + 12) → L.locate a = none) ∧
    (∀ (m : Memory) (i : Nat), m.wf → i < 2000 →
      L.memRead m (L.gridBase + 2 * i) 2 = (m.readCell i).map fun v => [glyphOf v, attrOf v])

/-- R37, R56, U8: an aligned write at `REG_BASE` runs its word; a misaligned access of either region is refused. -/
def Obligations.BusAccessesAreAligned : Prop :=
  ∀ (L : Layout) (s : State), L.Valid →
    (∀ w : Word, L.serve (.write L.regBase (bytesOfWord w)) s = runWord w s) ∧
    (∀ (a n : Nat) (g : Region) (o : Nat), L.locate a = some (g, o) → a % n ≠ 0 →
      L.serve (.read a n) s = .refused (.accessShape g o n)) ∧
    (∀ (a : Nat) (data : List Byte) (g : Region) (o : Nat), L.locate a = some (g, o) → a % data.length ≠ 0 →
      L.serve (.write a data) s = .refused (.accessShape g o data.length))

/-- R58, R55: a host read of the grid returns `G[i]`, a byte of it, or the aligned pair `{G[i+1], G[i]}`; every other shape
is refused. Admitting bytes and pairs is the model's choice among the spec's (log entry 6). -/
def Obligations.HostReadsOfTheGrid : Prop :=
  ∀ s : State, s.mem.wf →
    (∀ i : Nat, i < 2000 → ∃ v, s.cell i = some v ∧
      hostRead .grid (2 * i) 2 s = .next (s.observe (.cell v)) ∧
      hostRead .grid (2 * i) 1 s = .next (s.observe (.byte (glyphOf v))) ∧
      hostRead .grid (2 * i + 1) 1 s = .next (s.observe (.byte (attrOf v)))) ∧
    (∀ i : Nat, i < 2000 → i % 2 = 0 → ∃ v v', s.cell i = some v ∧ s.cell (i + 1) = some v' ∧
      hostRead .grid (2 * i) 4 s = .next (s.observe (.word (v' ++ v)))) ∧
    (∀ o n : Nat, ¬(o < 4000 ∧ (n = 1 ∨ (n = 2 ∧ o % 2 = 0) ∨ (n = 4 ∧ o % 4 = 0))) →
      hostRead .grid o n s = .refused (.accessShape .grid o n))

/-- R59: a read of either region changes only what the host has seen, and repeated it returns the same; storing the same
cell value twice equals storing it once. -/
def Obligations.ReadsHaveNoSideEffect : Prop :=
  (∀ (g : Region) (o n : Nat) (s t : State), hostRead g o n s = .next t →
    ∃ d, t = s.observe d ∧ hostRead g o n t = .next (t.observe d)) ∧
  (∀ (m : Memory) (i : Nat) (v : GridCell), (m.setCell i v).setCell i v = m.setCell i v)

/-! 40_cell_codec.md. -/

/-- R110: the cell format; injective and onto, so every value the controller stores is one the function produces. -/
def Obligations.CellPacksGlyphLowAttrHigh : Prop :=
  (∀ g a : Byte, encodeCell g a = g.setWidth 16 ||| (a.setWidth 16 <<< 8) ∧
    (encodeCell g a).extractLsb' 0 8 = g ∧ (encodeCell g a).extractLsb' 8 8 = a ∧
    (encodeCell g a).toNat = 256 * a.toNat + g.toNat ∧ encodeCell g a = a ++ g) ∧
  (∀ g a g' a' : Byte, encodeCell g a = encodeCell g' a' → g = g' ∧ a = a') ∧
  (∀ c : GridCell, ∃ g a, encodeCell g a = c) ∧
  encodeCell 0x00#8 0x00#8 = 0x0000#16 ∧ encodeCell 0xFF#8 0xFF#8 = 0xFFFF#16 ∧ encodeCell 0x41#8 0x07#8 = 0x0741#16

/-- R111: the attribute format, with the rule's values. -/
def Obligations.AttrPacksForegroundLowBackgroundHigh : Prop :=
  (∀ f b : ColorIndex, encodeAttribute f b = f.setWidth 8 ||| (b.setWidth 8 <<< 4) ∧
    (encodeAttribute f b).extractLsb' 0 4 = f ∧ (encodeAttribute f b).extractLsb' 4 4 = b ∧
    (encodeAttribute f b).toNat = 16 * b.toNat + f.toNat) ∧
  (∀ f b f' b' : ColorIndex, encodeAttribute f b = encodeAttribute f' b' → f = f' ∧ b = b') ∧
  (∀ a : Byte, ∃ f b, encodeAttribute f b = a) ∧
  encodeAttribute 0#4 0#4 = 0x00#8 ∧ encodeAttribute 15#4 15#4 = 0xFF#8 ∧
  encodeAttribute 7#4 0#4 = 0x07#8 ∧ defaultAttr = 0x07#8 ∧ encodeAttribute 14#4 4#4 = 0x4E#8

/-- R113 (which the spec derives from R110 and R111): the extractors' fields, and that they invert the encoders. -/
def Obligations.ExtractorsInvertTheCodec : Prop :=
  (∀ c : GridCell, glyphOf c = c.extractLsb' 0 8 ∧ attrOf c = c.extractLsb' 8 8) ∧
  (∀ a : Byte, fgOf a = a.extractLsb' 0 4 ∧ bgOf a = a.extractLsb' 4 4) ∧
  (∀ g a : Byte, glyphOf (encodeCell g a) = g ∧ attrOf (encodeCell g a) = a) ∧
  (∀ c : GridCell, encodeCell (glyphOf c) (attrOf c) = c) ∧
  (∀ f b : ColorIndex, fgOf (encodeAttribute f b) = f ∧ bgOf (encodeAttribute f b) = b) ∧
  (∀ a : Byte, encodeAttribute (fgOf a) (bgOf a) = a)

/-- R115 (which the spec derives from R110): the blank cell, with the rule's values. -/
def Obligations.BlankIsSpaceInTheColour : Prop :=
  (∀ a : Byte, blank a = 0x20#16 ||| (a.setWidth 16 <<< 8)) ∧
  blank 0x07#8 = 0x0720#16 ∧ blank 0x4E#8 = 0x4E20#16 ∧ blank 0x00#8 = 0x0020#16

/-! 41_cursor_scroll_engine.md. -/

/-- R126: SCROLL's net effect, its trace and its reads; it does not move the cursor. No command scrolls more than once, and
none that does not start on the last row. -/
def Obligations.ScrollShiftsUpAndBlanksTheLastRow : Prop :=
  (∀ s : State, s.mem.wf → ∃ t, scroll s = .next t ∧ t.row = s.row ∧ t.col = s.col ∧ t.color = s.color ∧
    HostSideKept s t ∧ t.mem.wf ∧ ScrollEffect s.color s.mem [] s t) ∧
  (∀ (i : Instr) (s t : State), exec i s = .next t →
    t.scrolls = s.scrolls ∨ (t.scrolls = s.scrolls + 1 ∧ s.row = 24#5 ∧ ∃ ch a, i = .wrch ch ∨ i = .wrchc ch a))

/-- R126, R62: the pseudocode's loops, cell by cell, leave the same state, log included, as the net effect the model uses. -/
def Obligations.ScrollLoopsEqualNetEffect : Prop :=
  ∀ s : State, s.mem.wf → scrollLoop s = scroll s

/-- R128: the pseudocode's loop leaves the same state, log included, as the net effect the model uses; that effect, cell by
cell, with its trace; it moves no cursor and sets no colour. -/
def Obligations.FillLoopEqualsNetEffect : Prop :=
  ∀ (v : GridCell) (s : State), s.mem.wf → ∃ t, fillGridLoop v s = .next t ∧ t = fillGrid v s ∧ FillEffect v s t ∧
    t.row = s.row ∧ t.col = s.col ∧ t.color = s.color ∧ HostSideKept s t ∧ t.mem.wf

/-- R129: both clamps on all integers, with the rule's table. -/
def Obligations.ClampIsNearestInRange : Prop :=
  (∀ v : Int, (v < 0 → (clampRow v).toNat = 0) ∧ (24 < v → (clampRow v).toNat = 24) ∧
    (0 ≤ v → v ≤ 24 → ((clampRow v).toNat : Int) = v)) ∧
  (∀ v : Int, (v < 0 → (clampCol v).toNat = 0) ∧ (79 < v → (clampCol v).toNat = 79) ∧
    (0 ≤ v → v ≤ 79 → ((clampCol v).toNat : Int) = v))

/-- R131 (which the spec derives from R123, R124, R126): one ADVANCE scrolls at most once; `n` printable characters from
cursor (0,0) scroll `max(0, n div 80 − 24)` times and leave the cursor at `(min(n div 80, 24), n mod 80)`. -/
def Obligations.ScrollCountOfPrintableText : Prop :=
  (∀ (ch : Byte) (s t : State), advance ch s = .next t → t.scrolls ≤ s.scrolls + 1) ∧
  (∀ (s : State) (bs : List Byte), s.AtRest → s.row.toNat = 0 → s.col.toNat = 0 → (∀ b ∈ bs, printable b) →
    ∃ t, execAll (wrbytes bs) s = .next t ∧ t.scrolls = s.scrolls + (bs.length / 80 - 24) ∧
      t.row.toNat = min (bs.length / 80) 24 ∧ t.col.toNat = bs.length % 80)

/-! 42_surface_commands.md. -/

/-- R141: from any state whatever, INIT ends in the one state the rule gives. -/
def Obligations.InitEndsInTheDefaultScreen : Prop :=
  ∀ s : State, ∃ t, exec .init s = .next t ∧ t.row = 0#5 ∧ t.col = 0#7 ∧ t.color = 0x07#8 ∧ t.mem.wf ∧
    FillEffect 0x0720#16 s t ∧ HostSideKept s t ∧
    (∀ s' t', exec .init s' = .next t' → SameS t t')

/-- R142: CLEAR fills with the active colour, which it keeps, and homes the cursor. -/
def Obligations.ClearFillsWithTheActiveColour : Prop :=
  ∀ s : State, ∃ t, exec .clear s = .next t ∧ t.row = 0#5 ∧ t.col = 0#7 ∧ t.color = s.color ∧ t.mem.wf ∧
    FillEffect (encodeCell 0x20#8 s.color) s t ∧ HostSideKept s t

/-- R143: SETCOLOR writes `color` and nothing else, for all 256 values. -/
def Obligations.SetcolorWritesTheColourOnly : Prop :=
  ∀ (attr : Byte) (s : State), exec (.setcolor attr) s = .next { s with color := attr }

/-- R144: SETCOLORFB writes `fg | bg << 4` to `color` and nothing else; it is SETCOLOR of that attribute. -/
def Obligations.SetcolorfbPacksTheColour : Prop :=
  ∀ (fg bg : ColorIndex) (s : State),
    exec (.setcolorfb fg bg) s = .next { s with color := fg.setWidth 8 ||| (bg.setWidth 8 <<< 4) } ∧
    exec (.setcolorfb fg bg) s = exec (.setcolor (fg.setWidth 8 ||| (bg.setWidth 8 <<< 4))) s

/-- R147: SETCURSOR clamps both coordinates independently, on any integers, and changes nothing else. -/
def Obligations.SetcursorClampsAndMovesOnly : Prop :=
  ∀ (r c : Int) (s : State), ∃ row col, exec (.setcursor r c) s = .next { s with row := row, col := col } ∧
    (row.toNat : Int) = max 0 (min r 24) ∧ (col.toNat : Int) = max 0 (min c 79)

/-- R121: WRCH of a newline. -/
def Obligations.NewlineFeedsALine : Prop :=
  ∀ s : State, s.AtRest → ∃ t, exec (.wrch 0x0A#8) s = .next t ∧ NewlineEffect s t

/-- R122: WRCH of a carriage return, from any state. -/
def Obligations.CarriageReturnOnlyHomesTheColumn : Prop :=
  ∀ s : State, ∃ t, exec (.wrch 0x0D#8) s = .next t ∧ ReturnEffect s t

/-- R123, R130, R125: WRCH of any other code: the cell is stored at the cursor, then the cursor moves, wraps and may
scroll. -/
def Obligations.PrintableStoresThenAdvances : Prop :=
  ∀ (ch : Byte) (s : State), s.AtRest → printable ch → ∃ t, exec (.wrch ch) s = .next t ∧ PrintableEffect ch s t

/-- R146: WRCHC sets the colour first, for every class of character and every value, then does as WRCH. The last clause is
its corner case (a), which the spec derives from R143 and R145. -/
def Obligations.WrchcSetsTheColourThenWrites : Prop :=
  ∀ (ch attr : Byte) (s : State), s.AtRest →
    ∃ t, exec (.wrchc ch attr) s = .next t ∧ t.color = attr ∧ CharEffect ch (s.withColor attr) t ∧
      execAll [.setcolor attr, .wrch ch] s = .next t

/-- R148 (a) (the spec's derivation): the idempotent commands. -/
def Obligations.IdempotentCommands : Prop :=
  ∀ (i : Instr) (s : State),
    (i = .init ∨ i = .clear ∨ (∃ a, i = .setcolor a) ∨ (∃ f b, i = .setcolorfb f b) ∨ (∃ r c, i = .setcursor r c)) →
    ∃ t u, exec i s = .next t ∧ exec i t = .next u ∧ SameS t u

/-- R148 (b) (the spec's derivation): absorption; INIT after any command sequence ends as INIT alone. -/
def Obligations.AbsorptionLaws : Prop :=
  (∀ (is : List Instr) (s : State), s.AtRest →
    ∃ t u, execAll (is ++ [.init]) s = .next t ∧ exec .init s = .next u ∧ SameS t u) ∧
  (∀ (a b : Byte) (s : State), execAll [.setcolor a, .setcolor b] s = exec (.setcolor b) s) ∧
  (∀ (r c r' c' : Int) (s : State), execAll [.setcursor r c, .setcursor r' c'] s = exec (.setcursor r' c') s)

/-- R148 (c), (d), (e) (the spec's derivation): commands that equal others, and commands that commute. -/
def Obligations.CommandIdentities : Prop :=
  ∀ s : State,
    exec .init s = execAll [.setcolor 0x07#8, .clear] s ∧
    (∀ ch a, exec (.wrchc ch a) s = execAll [.setcolor a, .wrch ch] s) ∧
    (∀ f b, exec (.setcolorfb f b) s = exec (.setcolor ((b.setWidth 8 <<< 4) ||| f.setWidth 8)) s) ∧
    (∀ a r c, execAll [.setcolor a, .setcursor r c] s = execAll [.setcursor r c, .setcolor a] s) ∧
    (∀ f b r c, execAll [.setcolorfb f b, .setcursor r c] s = execAll [.setcursor r c, .setcolorfb f b] s)

/-- R148 (f) (the spec's derivation): which commands can change the grid, and which the colour. -/
def Obligations.OnlyTheseCommandsChangeGridOrColour : Prop :=
  ∀ (i : Instr) (s t : State), exec i s = .next t →
    (t.mem ≠ s.mem → i = .init ∨ i = .clear ∨
      ∃ ch a, (i = .wrch ch ∨ i = .wrchc ch a) ∧ (printable ch ∨ t.scrolls = s.scrolls + 1)) ∧
    (t.color ≠ s.color → i = .init ∨ (∃ a, i = .setcolor a) ∨ (∃ f b, i = .setcolorfb f b) ∨ ∃ ch a, i = .wrchc ch a)

/-! 43_stream_macros.md, 30_encoding.md R94 to R96. -/

/-- R161: WRBYTES is one WRCH word per byte and the left fold of WRCH over its bytes; from rest it completes and never
writes `color`. -/
def Obligations.WrbytesFoldsWrch : Prop :=
  (∀ bs : List Byte, (wrbytes bs).map encode = bs.map fun b => 0x05000000#32 ||| b.setWidth 32) ∧
  (∀ s : State, execAll (wrbytes []) s = .next s) ∧
  (∀ (b : Byte) (bs : List Byte) (s : State),
    execAll (wrbytes (b :: bs)) s = andThen (exec (.wrch b) s) (execAll (wrbytes bs))) ∧
  (∀ (xs ys : List Byte) (s : State),
    execAll (wrbytes (xs ++ ys)) s = andThen (execAll (wrbytes xs) s) (execAll (wrbytes ys))) ∧
  (∀ (bs : List Byte) (s : State), s.AtRest → ∃ t, execAll (wrbytes bs) s = .next t ∧ t.AtRest ∧ t.color = s.color)

/-- R162, R163, R164: WRSTR is WRBYTES of the bytes before the first zero byte; with no zero byte it is refused. -/
def Obligations.WrstrStopsAtTheFirstZero : Prop :=
  (∀ (bs : List Byte) (n : Nat), strlen bs = some n ↔ bs[n]? = some 0#8 ∧ ∀ k, k < n → bs[k]? ≠ some 0#8) ∧
  (∀ pre rest : List Byte, 0#8 ∉ pre → wrstr (pre ++ 0#8 :: rest) = .ok (wrbytes pre)) ∧
  (∀ bs : List Byte, 0#8 ∉ bs → wrstr bs = .error .noTerminator)

/-- R166 (the spec's derivation): WRBYTES of `n` bytes is `n` commands and at most `2000 n + 1` stores, a bound that is
reached. -/
def Obligations.WrbytesStoreBound : Prop :=
  (∀ bs : List Byte, (wrbytes bs).length = bs.length) ∧
  (∀ (bs : List Byte) (s : State), s.AtRest → ∃ t l, execAll (wrbytes bs) s = .next t ∧ t.log = s.log ++ l ∧
    (storesOf l).length ≤ 2000 * bs.length + 1) ∧
  (∀ (ch : Byte) (k : Nat) (s : State), s.AtRest → printable ch → s.row.toNat = 24 → s.col.toNat = 79 →
    ∃ t l, execAll (wrbytes (ch :: List.replicate k 0x0A#8)) s = .next t ∧ t.log = s.log ++ l ∧
      (storesOf l).length = 2000 * (k + 1) + 1)

/-- 95_test_vectors.md S7, R113: printable characters that fit in the cursor's row read back, each with the colour at the time
of writing, and no other cell changes. -/
def Obligations.TextWithinARowReadsBack : Prop :=
  ∀ (bs : List Byte) (s : State), s.AtRest → (∀ b ∈ bs, printable b) → s.col.toNat + bs.length ≤ 80 →
    (s.row.toNat < 24 ∨ s.col.toNat + bs.length < 80) →
    ∃ t, execAll (wrbytes bs) s = .next t ∧ t.scrolls = s.scrolls ∧
      (∀ (k : Nat) (b : Byte), bs[k]? = some b →
        ∃ v, t.cell (idx s.row.toNat (s.col.toNat + k)) = some v ∧ glyphOf v = b ∧ attrOf v = s.color) ∧
      (∀ i : Nat, (i < s.target ∨ s.target + bs.length ≤ i) → t.cell i = s.cell i)

/-- R25, R181: no command touches the stream: what the host means to do next, what it has read, and the reset count. -/
def Obligations.CommandsNeverTouchTheStream : Prop :=
  ∀ (i : Instr) (s t : State), exec i s = .next t → HostSideKept s t

/-- R16, R25, R181: the words of a command list, written to CMD one after another, run as that list, one step each, whatever
the host means to do afterwards. The events' list is the model's own (log entry 3). -/
def Obligations.HostStreamRunsInOrder : Prop :=
  ∀ (is : List Instr) (s : State), (∀ i ∈ is, i.wellFormed) →
    serveMany is.length (presentAll is s) = execAll is s

/-- R94, R95: the word of each syntax form, the words of the two stream forms; what a line assembles to decodes to the line's
commands. -/
def Obligations.AssemblerEmitsTheTableWords : Prop :=
  AsmLine.init.words = .ok [0x01000000#32] ∧ AsmLine.clear.words = .ok [0x02000000#32] ∧
  (∀ a : Int, inRange 0 255 a → (AsmLine.setcolor a).words = .ok [0x03000000#32 ||| BitVec.ofInt 32 a]) ∧
  (∀ f b : Int, inRange 0 15 f → inRange 0 15 b →
    (AsmLine.setcolorfb f b).words = .ok [0x04000000#32 ||| (BitVec.ofInt 32 b <<< 8) ||| BitVec.ofInt 32 f]) ∧
  (∀ c : Int, inRange 0 255 c → (AsmLine.wrch c).words = .ok [0x05000000#32 ||| BitVec.ofInt 32 c]) ∧
  (∀ c a : Int, inRange 0 255 c → inRange 0 255 a →
    (AsmLine.wrchc c a).words = .ok [0x05010000#32 ||| (BitVec.ofInt 32 a <<< 8) ||| BitVec.ofInt 32 c]) ∧
  (∀ r c : Int, inRange (-2048) 2047 r → inRange (-2048) 2047 c →
    (AsmLine.setcursor r c).words =
      .ok [0x06000000#32 ||| (BitVec.ofInt 32 (r % 4096) <<< 12) ||| BitVec.ofInt 32 (c % 4096)]) ∧
  (∀ bs : List Int, (∀ b ∈ bs, inRange 0 255 b) →
    (AsmLine.wrbytes bs).words = .ok (bs.map fun b => 0x05000000#32 ||| BitVec.ofInt 32 b)) ∧
  (∀ pre rest : List Int, (∀ b ∈ pre ++ 0 :: rest, inRange 0 255 b) → 0 ∉ pre →
    (AsmLine.wrstr (pre ++ 0 :: rest)).words = .ok (pre.map fun b => 0x05000000#32 ||| BitVec.ofInt 32 b)) ∧
  (∀ bs : List Int, (∀ b ∈ bs, inRange 0 255 b) → 0 ∉ bs →
    (AsmLine.wrstr bs).words = .ok (bs.map fun b => 0x05000000#32 ||| BitVec.ofInt 32 b)) ∧
  (∀ (l : AsmLine) (ws : List Word), l.words = .ok ws → ws.map decode = l.commands.map .ok)

/-- R96: the assembler refuses a line exactly when an operand is outside the range of R94. -/
def Obligations.AssemblerRefusesOutOfRange : Prop :=
  ∀ l : AsmLine, (l.words = .error .operandRange ↔ ¬l.rangesHold) ∧ (l.rangesHold → ∃ ws, l.words = .ok ws)

/-! 70_reset_and_hazards.md. -/

/-- R190, R41: the registers after power-on reset, and what CURSOR and COLOR read; the controller has stored nothing. That
each byte of the grid is the free value `Config.resetByte 0` is the model's form of "unspecified" (log entry 2). -/
def Obligations.ResetLeavesRegistersAndFreeGrid : Prop :=
  State.reset.row = 0#5 ∧ State.reset.col = 0#7 ∧ State.reset.color = 0x07#8 ∧ State.reset.log = [] ∧
  cursorReg State.reset = 0x00000000#32 ∧ colorReg State.reset = 0x00000007#32 ∧
  (∀ a : Nat, a < 4000 → State.reset.mem.read a = some (Config.resetByte 0 a))

/-- R190 to R192, U14: a hardware reset at any time, from any state: the registers, no store, a grid that is free anew (the
model's form, log entry 2), the host's side kept (log entry 3). -/
def Obligations.HardwareResetAtAnyTime : Prop :=
  ∀ s : State, ∃ t, hostEvent .reset s = .next t ∧ t.row = 0#5 ∧ t.col = 0#7 ∧ t.color = 0x07#8 ∧ t.AtRest ∧
    t.log = [] ∧ t.host = s.host ∧ t.observed = s.observed ∧
    (∀ a : Nat, a < 4000 → t.mem.read a = some (Config.resetByte (s.resets + 1) a))

/-- R193: commands right after reset are defined: `wrch 'A'` stores cell 0 and keeps every unspecified cell, a newline on the
last row copies unspecified cells, and CLEAR ends as INIT does. -/
def Obligations.CommandsRightAfterReset : Prop :=
  (∃ t, exec (.wrch 0x41#8) State.reset = .next t ∧ t.row = 0#5 ∧ t.col = 1#7 ∧ t.cell 0 = some 0x0741#16 ∧
    ∀ i, 1 ≤ i → t.cell i = State.reset.cell i) ∧
  (∃ t, execAll [.setcursor 24 0, .wrch 0x0A#8] State.reset = .next t ∧
    (∀ i, i < 1920 → t.cell i = State.reset.cell (i + 80)) ∧ ∀ i, 1920 ≤ i → i < 2000 → t.cell i = some 0x0720#16) ∧
  (∃ t u, exec .clear State.reset = .next t ∧ exec .init State.reset = .next u ∧ SameS t u)

/-- R196, R66, V-S2: while a newline on the last row scrolls, after the stores of rows 0 to `r` the display sees those rows
shifted and the others not, row `r + 1` twice. -/
def Obligations.DisplayMaySeeAHalfDoneScroll : Prop :=
  ∀ (s t : State) (r : Nat), s.AtRest → s.row.toNat = 24 → r ≤ 23 → exec (.wrch 0x0A#8) s = .next t →
    (∀ i, i < 80 * (r + 1) →
      (displayView s.mem (accessesSince s t) (80 * (r + 1))).readCell i = s.cell (i + 80)) ∧
    (∀ i, 80 * (r + 1) ≤ i → (displayView s.mem (accessesSince s t) (80 * (r + 1))).readCell i = s.cell i)

/-- R202 (the spec's derivation): the exact counts of cell writes and cell reads of every command, from rest; a reserved
word makes none. -/
def Obligations.WorkOfEveryCommand : Prop :=
  (∀ (i : Instr) (s : State), s.AtRest → ∃ t l, exec i s = .next t ∧ t.log = s.log ++ l ∧
    (storesOf l).length = workWrites i s ∧ (readsOf l).length = workReads i s) ∧
  (∀ (w : Word) (r : Reserved) (s : State), decode w = .error r → runWord w s = .next s)
end

