-- ==== Sys2Proof/Laws/Codec.lean ====
section
/-! SUPPORT. The Cell Codec: packing then unpacking, and the reverse. -/

namespace Sys2Proof.Machine

@[simp] theorem glyphOf_encodeCell (g a : Byte) : glyphOf (encodeCell g a) = g := by
  apply BitVec.eq_of_getLsbD_eq
  intro i hi
  simp [glyphOf, encodeCell, BitVec.getLsbD_extractLsb', BitVec.getLsbD_setWidth]
  grind

@[simp] theorem attrOf_encodeCell (g a : Byte) : attrOf (encodeCell g a) = a := by
  apply BitVec.eq_of_getLsbD_eq
  intro i hi
  simp [attrOf, encodeCell, BitVec.getLsbD_extractLsb', BitVec.getLsbD_setWidth]
  grind

@[simp] theorem encodeCell_parts (c : GridCell) : encodeCell (glyphOf c) (attrOf c) = c := by
  apply BitVec.eq_of_getLsbD_eq
  intro i hi
  simp only [glyphOf, attrOf, encodeCell, BitVec.getLsbD_extractLsb', BitVec.getLsbD_setWidth, BitVec.getLsbD_or,
    BitVec.getLsbD_shiftLeft]
  by_cases h : i < 8
  · simp [h]; omega
  · have : 8 + (i - 8) = i := by omega
    simp only [h, this]; grind

end Sys2Proof.Machine
end

