-- ==== Sys2Proof/Laws/Memory.lean ====
section
/-! SUPPORT. The grid as memory: read after write, writes elsewhere, the canonical form kept by every operation. -/

namespace Sys2Proof.Machine

/-! One byte. -/

@[simp] theorem Memory.keys_set (m : Memory) (a : Nat) (v : Byte) : (m.set a v).map Prod.fst = m.map Prod.fst := by
  induction m with
  | nil => rfl
  | cons e m ih =>
    obtain ⟨k, b⟩ := e
    simp only [Memory.set]
    split <;> simp [ih]

/-- Read after write: the written byte where the address is listed, any other address as before. -/
theorem Memory.read_set (m : Memory) (a : Nat) (v : Byte) (a' : Nat) :
    (m.set a v).read a' = if a' = a then (m.read a).map (fun _ => v) else m.read a' := by
  induction m with
  | nil => simp [Memory.set, Memory.read, Memory.unlisted]
  | cons e m ih =>
    obtain ⟨k, b⟩ := e
    simp only [Memory.set, Memory.read]
    grind [Memory.read]

theorem Memory.read_isSome (m : Memory) (a : Nat) : (m.read a).isSome = true ↔ a ∈ m.map Prod.fst := by
  induction m with
  | nil => simp [Memory.read, Memory.unlisted]
  | cons e m ih =>
    obtain ⟨k, b⟩ := e
    simp only [Memory.read, List.map_cons, List.mem_cons]
    split <;> simp_all

/-- In the canonical form exactly the 4000 addresses of the region read. -/
theorem Memory.wf.read_isSome {m : Memory} (h : m.wf) (a : Nat) : (m.read a).isSome = true ↔ a < 4000 := by
  rw [Memory.read_isSome, show m.map Prod.fst = _ from h, List.mem_range]

theorem Memory.wf.set {m : Memory} (h : m.wf) (a : Nat) (v : Byte) : (m.set a v).wf := by
  simpa [Memory.wf] using h

/-- The canonical form lists its addresses in rising order. -/
theorem Memory.wf.rising {m : Memory} (h : m.wf) : (m.map Prod.fst).Pairwise (· < ·) := by
  rw [show m.map Prod.fst = _ from h]; exact List.pairwise_lt_range

/-! One cell. -/

theorem Memory.wf.setCell {m : Memory} (h : m.wf) (i : Nat) (v : GridCell) : (m.setCell i v).wf :=
  (h.set _ _).set _ _

@[simp] theorem Memory.keys_setCell (m : Memory) (i : Nat) (v : GridCell) :
    (m.setCell i v).map Prod.fst = m.map Prod.fst := by simp [Memory.setCell]

/-- A cell store leaves every byte outside the cell alone. -/
theorem Memory.read_setCell_of_ne (m : Memory) (i : Nat) (v : GridCell) {a : Nat} (h0 : a ≠ cellOffset i)
    (h1 : a ≠ cellOffset i + 1) : (m.setCell i v).read a = m.read a := by
  simp [Memory.setCell, Memory.read_set, h0, h1]

theorem Memory.readCell_isSome (m : Memory) (i : Nat) :
    (m.readCell i).isSome = true ↔ (m.read (cellOffset i)).isSome = true ∧ (m.read (cellOffset i + 1)).isSome = true := by
  unfold Memory.readCell
  cases m.read (cellOffset i) <;> cases m.read (cellOffset i + 1) <;> simp

theorem Memory.wf.readCell_isSome {m : Memory} (h : m.wf) (i : Nat) : (m.readCell i).isSome = true ↔ i < 2000 := by
  rw [Memory.readCell_isSome, h.read_isSome, h.read_isSome]
  simp only [cellOffset]; omega

theorem Memory.wf.readCell_eq_some {m : Memory} (h : m.wf) {i : Nat} (hi : i < 2000) : ∃ v, m.readCell i = some v :=
  Option.isSome_iff_exists.mp ((h.readCell_isSome i).mpr hi)

theorem Memory.wf.readCell_eq_none {m : Memory} (h : m.wf) {i : Nat} (hi : 2000 ≤ i) : m.readCell i = none := by
  have := h.readCell_isSome i
  cases hc : m.readCell i with
  | none => rfl
  | some v => simp [hc] at this; omega

/-- Read after a cell store. -/
theorem Memory.readCell_setCell (m : Memory) (i : Nat) (v : GridCell) (j : Nat) :
    (m.setCell i v).readCell j = if j = i then (m.readCell i).map (fun _ => v) else m.readCell j := by
  by_cases h : j = i
  · subst h
    have h1 : cellOffset j ≠ cellOffset j + 1 := by omega
    simp only [Memory.readCell, Memory.setCell, Memory.read_set, h1, h1.symm, if_true, if_false]
    cases m.read (cellOffset j) <;> cases m.read (cellOffset j + 1) <;> simp
  · have e : ∀ a, a = cellOffset j ∨ a = cellOffset j + 1 → (m.setCell i v).read a = m.read a := by
      intro a ha
      apply Memory.read_setCell_of_ne <;> simp only [cellOffset] at * <;> omega
    simp [Memory.readCell, h, e]

/-! The grid laid out from its cells. -/

theorem Memory.keys_ofCellsFrom (cs : List GridCell) (i : Nat) :
    (Memory.ofCellsFrom i cs).map Prod.fst = List.range' (2 * i) (2 * cs.length) := by
  induction cs generalizing i with
  | nil => rfl
  | cons c cs ih =>
    simp [Memory.ofCellsFrom, ih, cellOffset, Nat.mul_add, List.range'_succ]

theorem Memory.wf_ofCells {cs : List GridCell} (h : cs.length = 2000) : (Memory.ofCells cs).wf := by
  simp [Memory.wf, Memory.ofCells, Memory.keys_ofCellsFrom, h, List.range_eq_range']

theorem Memory.readCell_ofCellsFrom (cs : List GridCell) (i k : Nat) (h : i ≤ k) :
    (Memory.ofCellsFrom i cs).readCell k = cs[k - i]? := by
  induction cs generalizing i with
  | nil => simp [Memory.ofCellsFrom, Memory.readCell, Memory.read, Memory.unlisted]
  | cons c cs ih =>
    by_cases hk : k = i
    · subst hk
      simp [Memory.ofCellsFrom, Memory.readCell, Memory.read]
    · have hs : k - i = (k - (i + 1)) + 1 := by omega
      have h1 : cellOffset k ≠ cellOffset i := by simp only [cellOffset]; omega
      have h2 : cellOffset k ≠ cellOffset i + 1 := by simp only [cellOffset]; omega
      have h3 : cellOffset k + 1 ≠ cellOffset i := by simp only [cellOffset]; omega
      have h4 : cellOffset k + 1 ≠ cellOffset i + 1 := by simp only [cellOffset]; omega
      have := ih (i + 1) (by omega)
      rw [hs, List.getElem?_cons_succ, ← this]
      simp [Memory.ofCellsFrom, Memory.readCell, Memory.read, h1, h2, h3]

@[simp] theorem Memory.readCell_ofCells (cs : List GridCell) (k : Nat) : (Memory.ofCells cs).readCell k = cs[k]? :=
  Memory.readCell_ofCellsFrom cs 0 k (Nat.zero_le k)

theorem Memory.toCells_ofCellsFrom (cs : List GridCell) (i : Nat) : (Memory.ofCellsFrom i cs).toCells = cs := by
  induction cs generalizing i with
  | nil => rfl
  | cons c cs ih =>
    have := ih (i + 1)
    simp only [Memory.toCells] at this ⊢
    simp [Memory.ofCellsFrom, pairBytes, this]

theorem Memory.ofCellsFrom_toCells (n i : Nat) (m : Memory) (h : m.map Prod.fst = List.range' (2 * i) (2 * n)) :
    Memory.ofCellsFrom i m.toCells = m ∧ m.toCells.length = n := by
  induction n generalizing i m with
  | zero =>
    have : m = [] := by simpa using h
    subst this; exact ⟨rfl, rfl⟩
  | succ n ih =>
    match m, h with
    | [], h => simp [Nat.mul_add, List.range'_succ] at h
    | [_], h => simp [Nat.mul_add, List.range'_succ] at h
    | (a, lo) :: (b, hi) :: m, h =>
      simp only [Nat.mul_add, Nat.mul_one, List.range'_succ, List.map_cons, List.cons.injEq] at h
      obtain ⟨rfl, rfl, h⟩ := h
      have := ih (i + 1) m (by simpa [Nat.mul_add, Nat.add_assoc] using h)
      simp only [Memory.toCells] at this ⊢
      simp [pairBytes, Memory.ofCellsFrom, this, cellOffset]

/-- The canonical form, as the addresses of 2000 cells from cell 0 on. -/
theorem Memory.wf.keys {m : Memory} (h : m.wf) : m.map Prod.fst = List.range' (2 * 0) (2 * 2000) :=
  Eq.trans h List.range_eq_range'

/-- A memory in its canonical form is the layout of its cells. -/
theorem Memory.wf.ofCells_toCells {m : Memory} (h : m.wf) : Memory.ofCells m.toCells = m :=
  (Memory.ofCellsFrom_toCells 2000 0 m h.keys).1

theorem Memory.wf.length_toCells {m : Memory} (h : m.wf) : m.toCells.length = 2000 :=
  (Memory.ofCellsFrom_toCells 2000 0 m h.keys).2

theorem Memory.wf.getElem?_toCells {m : Memory} (h : m.wf) (k : Nat) : m.toCells[k]? = m.readCell k := by
  rw [← Memory.readCell_ofCells, h.ofCells_toCells]

/-- Two memories in canonical form with equal cells are equal data. -/
theorem Memory.wf.ext {m m' : Memory} (h : m.wf) (h' : m'.wf) (e : ∀ i, i < 2000 → m.readCell i = m'.readCell i) : m = m' := by
  rw [← h.ofCells_toCells, ← h'.ofCells_toCells]
  congr 1
  apply List.ext_getElem?
  intro k
  rw [h.getElem?_toCells, h'.getElem?_toCells]
  by_cases hk : k < 2000
  · exact e k hk
  · rw [h.readCell_eq_none (by omega), h'.readCell_eq_none (by omega)]

/-! The grid after reset. -/

theorem wf_resetMemory (n : Nat) : (resetMemory n).wf := by
  simp [Memory.wf, resetMemory, Function.comp_def]

end Sys2Proof.Machine
end

