-- ==== Sys2Proof/Laws/State.lean ====
section
/-! SUPPORT. One lemma per field per update of State, so that no proof unfolds a record update. -/

namespace Sys2Proof.Machine

variable (s : State)

@[simp] theorem State.withRow_row (v : BitVec 5) : (s.withRow v).row = v := rfl
@[simp] theorem State.withRow_col (v : BitVec 5) : (s.withRow v).col = s.col := rfl
@[simp] theorem State.withRow_color (v : BitVec 5) : (s.withRow v).color = s.color := rfl
@[simp] theorem State.withRow_mem (v : BitVec 5) : (s.withRow v).mem = s.mem := rfl
@[simp] theorem State.withRow_host (v : BitVec 5) : (s.withRow v).host = s.host := rfl
@[simp] theorem State.withRow_observed (v : BitVec 5) : (s.withRow v).observed = s.observed := rfl
@[simp] theorem State.withRow_log (v : BitVec 5) : (s.withRow v).log = s.log := rfl
@[simp] theorem State.withRow_scrolls (v : BitVec 5) : (s.withRow v).scrolls = s.scrolls := rfl
@[simp] theorem State.withRow_resets (v : BitVec 5) : (s.withRow v).resets = s.resets := rfl

@[simp] theorem State.withCol_row (v : BitVec 7) : (s.withCol v).row = s.row := rfl
@[simp] theorem State.withCol_col (v : BitVec 7) : (s.withCol v).col = v := rfl
@[simp] theorem State.withCol_color (v : BitVec 7) : (s.withCol v).color = s.color := rfl
@[simp] theorem State.withCol_mem (v : BitVec 7) : (s.withCol v).mem = s.mem := rfl
@[simp] theorem State.withCol_host (v : BitVec 7) : (s.withCol v).host = s.host := rfl
@[simp] theorem State.withCol_observed (v : BitVec 7) : (s.withCol v).observed = s.observed := rfl
@[simp] theorem State.withCol_log (v : BitVec 7) : (s.withCol v).log = s.log := rfl
@[simp] theorem State.withCol_scrolls (v : BitVec 7) : (s.withCol v).scrolls = s.scrolls := rfl
@[simp] theorem State.withCol_resets (v : BitVec 7) : (s.withCol v).resets = s.resets := rfl

@[simp] theorem State.withColor_row (v : Byte) : (s.withColor v).row = s.row := rfl
@[simp] theorem State.withColor_col (v : Byte) : (s.withColor v).col = s.col := rfl
@[simp] theorem State.withColor_color (v : Byte) : (s.withColor v).color = v := rfl
@[simp] theorem State.withColor_mem (v : Byte) : (s.withColor v).mem = s.mem := rfl
@[simp] theorem State.withColor_host (v : Byte) : (s.withColor v).host = s.host := rfl
@[simp] theorem State.withColor_observed (v : Byte) : (s.withColor v).observed = s.observed := rfl
@[simp] theorem State.withColor_log (v : Byte) : (s.withColor v).log = s.log := rfl
@[simp] theorem State.withColor_scrolls (v : Byte) : (s.withColor v).scrolls = s.scrolls := rfl
@[simp] theorem State.withColor_resets (v : Byte) : (s.withColor v).resets = s.resets := rfl

@[simp] theorem State.withMem_row (m : Memory) : (s.withMem m).row = s.row := rfl
@[simp] theorem State.withMem_col (m : Memory) : (s.withMem m).col = s.col := rfl
@[simp] theorem State.withMem_color (m : Memory) : (s.withMem m).color = s.color := rfl
@[simp] theorem State.withMem_mem (m : Memory) : (s.withMem m).mem = m := rfl
@[simp] theorem State.withMem_host (m : Memory) : (s.withMem m).host = s.host := rfl
@[simp] theorem State.withMem_observed (m : Memory) : (s.withMem m).observed = s.observed := rfl
@[simp] theorem State.withMem_log (m : Memory) : (s.withMem m).log = s.log := rfl
@[simp] theorem State.withMem_scrolls (m : Memory) : (s.withMem m).scrolls = s.scrolls := rfl
@[simp] theorem State.withMem_resets (m : Memory) : (s.withMem m).resets = s.resets := rfl

@[simp] theorem State.withHost_row (h : List HostEvent) : (s.withHost h).row = s.row := rfl
@[simp] theorem State.withHost_col (h : List HostEvent) : (s.withHost h).col = s.col := rfl
@[simp] theorem State.withHost_color (h : List HostEvent) : (s.withHost h).color = s.color := rfl
@[simp] theorem State.withHost_mem (h : List HostEvent) : (s.withHost h).mem = s.mem := rfl
@[simp] theorem State.withHost_host (h : List HostEvent) : (s.withHost h).host = h := rfl
@[simp] theorem State.withHost_observed (h : List HostEvent) : (s.withHost h).observed = s.observed := rfl
@[simp] theorem State.withHost_log (h : List HostEvent) : (s.withHost h).log = s.log := rfl
@[simp] theorem State.withHost_scrolls (h : List HostEvent) : (s.withHost h).scrolls = s.scrolls := rfl
@[simp] theorem State.withHost_resets (h : List HostEvent) : (s.withHost h).resets = s.resets := rfl

@[simp] theorem State.observe_row (d : ReadData) : (s.observe d).row = s.row := rfl
@[simp] theorem State.observe_col (d : ReadData) : (s.observe d).col = s.col := rfl
@[simp] theorem State.observe_color (d : ReadData) : (s.observe d).color = s.color := rfl
@[simp] theorem State.observe_mem (d : ReadData) : (s.observe d).mem = s.mem := rfl
@[simp] theorem State.observe_host (d : ReadData) : (s.observe d).host = s.host := rfl
@[simp] theorem State.observe_observed (d : ReadData) : (s.observe d).observed = s.observed ++ [d] := rfl
@[simp] theorem State.observe_log (d : ReadData) : (s.observe d).log = s.log := rfl
@[simp] theorem State.observe_scrolls (d : ReadData) : (s.observe d).scrolls = s.scrolls := rfl
@[simp] theorem State.observe_resets (d : ReadData) : (s.observe d).resets = s.resets := rfl

@[simp] theorem State.logged_row (l : List CellAccess) : (s.logged l).row = s.row := rfl
@[simp] theorem State.logged_col (l : List CellAccess) : (s.logged l).col = s.col := rfl
@[simp] theorem State.logged_color (l : List CellAccess) : (s.logged l).color = s.color := rfl
@[simp] theorem State.logged_mem (l : List CellAccess) : (s.logged l).mem = s.mem := rfl
@[simp] theorem State.logged_host (l : List CellAccess) : (s.logged l).host = s.host := rfl
@[simp] theorem State.logged_observed (l : List CellAccess) : (s.logged l).observed = s.observed := rfl
@[simp] theorem State.logged_log (l : List CellAccess) : (s.logged l).log = s.log ++ l := rfl
@[simp] theorem State.logged_scrolls (l : List CellAccess) : (s.logged l).scrolls = s.scrolls := rfl
@[simp] theorem State.logged_resets (l : List CellAccess) : (s.logged l).resets = s.resets := rfl

@[simp] theorem State.countScroll_row : (s.countScroll).row = s.row := rfl
@[simp] theorem State.countScroll_col : (s.countScroll).col = s.col := rfl
@[simp] theorem State.countScroll_color : (s.countScroll).color = s.color := rfl
@[simp] theorem State.countScroll_mem : (s.countScroll).mem = s.mem := rfl
@[simp] theorem State.countScroll_host : (s.countScroll).host = s.host := rfl
@[simp] theorem State.countScroll_observed : (s.countScroll).observed = s.observed := rfl
@[simp] theorem State.countScroll_log : (s.countScroll).log = s.log := rfl
@[simp] theorem State.countScroll_scrolls : (s.countScroll).scrolls = s.scrolls + 1 := rfl
@[simp] theorem State.countScroll_resets : (s.countScroll).resets = s.resets := rfl

@[simp] theorem State.reset_row : State.reset.row = 0#5 := rfl
@[simp] theorem State.reset_col : State.reset.col = 0#7 := rfl
@[simp] theorem State.reset_color : State.reset.color = defaultAttr := rfl
@[simp] theorem State.reset_mem : State.reset.mem = resetMemory 0 := by simp only [State.reset]
@[simp] theorem State.reset_host : State.reset.host = [] := rfl
@[simp] theorem State.reset_observed : State.reset.observed = [] := rfl
@[simp] theorem State.reset_log : State.reset.log = [] := rfl
@[simp] theorem State.reset_scrolls : State.reset.scrolls = 0 := rfl
@[simp] theorem State.reset_resets : State.reset.resets = 0 := rfl

end Sys2Proof.Machine
end

