-- ==== Sys2Proof/Laws/Ops.lean ====
section
/-! SUPPORT. What each micro-operation does, said once: the state it answers where it answers one, and what a next state of it
can be. Provers cite these instead of unfolding Machine/Ops.lean. -/

namespace Sys2Proof.Machine

/-! Sequencing. -/

@[simp] theorem andThen_next (s : State) (f : State → Result) : andThen (.next s) f = f s := rfl
@[simp] theorem andThen_fault (e : Fault) (f : State → Result) : andThen (.fault e) f = .fault e := rfl
@[simp] theorem andThen_refused (e : Refusal) (f : State → Result) : andThen (.refused e) f = .refused e := rfl

/-- A sequence answers a next state exactly when both parts do. -/
theorem andThen_eq_next {r : Result} {f : State → Result} {t : State} :
    andThen r f = .next t ↔ ∃ u, r = .next u ∧ f u = .next t := by
  cases r <;> simp

theorem andThen_assoc (r : Result) (f g : State → Result) :
    andThen (andThen r f) g = andThen r fun s => andThen (f s) g := by
  cases r <;> rfl

/-! The log's two projections. -/

@[simp] theorem storesOf_append (l l' : List CellAccess) : storesOf (l ++ l') = storesOf l ++ storesOf l' := by
  induction l with
  | nil => rfl
  | cons a l ih => cases a <;> simp [storesOf, ih]

@[simp] theorem readsOf_append (l l' : List CellAccess) : readsOf (l ++ l') = readsOf l ++ readsOf l' := by
  induction l with
  | nil => rfl
  | cons a l ih => cases a <;> simp [readsOf, ih]

theorem replay_append (m : Memory) (l l' : List (Nat × GridCell)) : replay m (l ++ l') = replay (replay m l) l' := by
  induction l generalizing m with
  | nil => rfl
  | cons a l ih => obtain ⟨i, v⟩ := a; simp [replay, ih]

/-- A replay keeps the canonical form. -/
theorem Memory.wf.replay {m : Memory} (h : m.wf) (l : List (Nat × GridCell)) : (replay m l).wf := by
  induction l generalizing m with
  | nil => exact h
  | cons a l ih => obtain ⟨i, v⟩ := a; exact ih (h.setCell i v)

theorem readsAgree_append (m : Memory) (l l' : List CellAccess) :
    readsAgree m (l ++ l') ↔ readsAgree m l ∧ readsAgree (replay m (storesOf l)) l' := by
  induction l generalizing m with
  | nil => simp [readsAgree, storesOf, replay]
  | cons a l ih => cases a <;> simp [readsAgree, storesOf, replay, ih, and_assoc]

theorem storesOf_fillLog (v : GridCell) (i n : Nat) :
    storesOf (fillLog v i n) = (List.range' i n).map fun j => (j, v) := by
  induction n generalizing i with
  | zero => rfl
  | succ n ih => simp [fillLog, storesOf, ih, List.range'_succ]

@[simp] theorem readsOf_fillLog (v : GridCell) (i n : Nat) : readsOf (fillLog v i n) = [] := by
  induction n generalizing i with
  | zero => rfl
  | succ n ih => simp [fillLog, readsOf, ih]

theorem storesOf_copyLog (vs : List GridCell) (i : Nat) :
    storesOf (copyLog i vs) = (List.range' i vs.length).zip vs := by
  induction vs generalizing i with
  | nil => rfl
  | cons v vs ih => simp [copyLog, storesOf, ih, List.range'_succ]

theorem readsOf_copyLog (vs : List GridCell) (i : Nat) :
    readsOf (copyLog i vs) = (List.range' (i + 80) vs.length).zip vs := by
  induction vs generalizing i with
  | nil => rfl
  | cons v vs ih => simp [copyLog, readsOf, ih, List.range'_succ, Nat.add_right_comm]

/-! GridWrite and STORE_CELL (R11, R125). -/

theorem gridWrite_of_wf {s : State} (h : s.mem.wf) {i : Nat} (hi : i < 2000) (v : GridCell) :
    gridWrite i v s = .next ((s.withMem (s.mem.setCell i v)).logged [.write i v]) := by
  obtain ⟨w, hw⟩ := h.readCell_eq_some hi
  simp [gridWrite, hw]

/-- GridWrite answers a next state only where the cell exists, and then the one with that cell stored. -/
theorem gridWrite_eq_next {s t : State} {i : Nat} {v : GridCell} :
    gridWrite i v s = .next t ↔
      (s.mem.readCell i).isSome = true ∧ t = (s.withMem (s.mem.setCell i v)).logged [.write i v] := by
  unfold gridWrite
  cases s.mem.readCell i <;> simp [eq_comm]

theorem gridCopy_of_wf {s : State} (h : s.mem.wf) {i j : Nat} {v : GridCell} (hv : s.mem.readCell i = some v)
    (hj : j < 2000) : gridCopy i j s = .next ((s.withMem (s.mem.setCell j v)).logged [.read i v, .write j v]) := by
  simp only [gridCopy, hv]
  rw [gridWrite_of_wf (by simpa using h) hj]
  simp [State.logged, State.withMem]

/-- A cursor at rest points into the grid (R52). -/
theorem idx_lt {r c : Nat} (hr : r < 25) (hc : c < 80) : idx r c < 2000 := by
  simp only [idx, Config.columns]; omega

theorem storeCell_of_rest {s : State} (h : s.mem.wf) {r : BitVec 5} {c : BitVec 7} (hr : r.toNat < 25)
    (hc : c.toNat < 80) (ch : Byte) :
    storeCell r c ch s =
      .next ((s.withMem (s.mem.setCell (idx r.toNat c.toNat) (encodeCell ch s.color))).logged
        [.write (idx r.toNat c.toNat) (encodeCell ch s.color)]) :=
  gridWrite_of_wf h (idx_lt hr hc) _

/-! FILL_GRID (R128). -/

theorem fillGrid_readCell (v : GridCell) (s : State) (i : Nat) :
    (fillGrid v s).mem.readCell i = if i < 2000 then some v else none := by
  simp only [fillGrid, State.logged_mem, State.withMem_mem, Memory.readCell_ofCells]
  split <;> simp_all

theorem fillGrid_wf (v : GridCell) (s : State) : (fillGrid v s).mem.wf := by
  simp only [fillGrid, State.logged_mem, State.withMem_mem]
  exact Memory.wf_ofCells (by simp)

@[simp] theorem fillGrid_row (v : GridCell) (s : State) : (fillGrid v s).row = s.row := rfl
@[simp] theorem fillGrid_col (v : GridCell) (s : State) : (fillGrid v s).col = s.col := rfl
@[simp] theorem fillGrid_color (v : GridCell) (s : State) : (fillGrid v s).color = s.color := rfl
@[simp] theorem fillGrid_host (v : GridCell) (s : State) : (fillGrid v s).host = s.host := rfl
@[simp] theorem fillGrid_observed (v : GridCell) (s : State) : (fillGrid v s).observed = s.observed := rfl
@[simp] theorem fillGrid_scrolls (v : GridCell) (s : State) : (fillGrid v s).scrolls = s.scrolls := rfl
@[simp] theorem fillGrid_resets (v : GridCell) (s : State) : (fillGrid v s).resets = s.resets := rfl
@[simp] theorem fillGrid_log (v : GridCell) (s : State) : (fillGrid v s).log = s.log ++ fillLog v 0 2000 := rfl

/-! SCROLL (R126). -/

/-- The cells SCROLL keeps: rows 1 to 24. -/
def keptCells (m : Memory) : List GridCell := m.toCells.drop 80

/-- The grid SCROLL leaves. -/
def scrolledMem (m : Memory) (c : Byte) : Memory := Memory.ofCells (keptCells m ++ List.replicate 80 (blank c))

/-- The accesses SCROLL makes. -/
def scrollLog (m : Memory) (c : Byte) : List CellAccess := copyLog 0 (keptCells m) ++ fillLog (blank c) 1920 80

/-- The state SCROLL leaves. -/
def scrolled (s : State) : State :=
  ((s.withMem (scrolledMem s.mem s.color)).logged (scrollLog s.mem s.color)).countScroll

theorem scroll_of_wf {s : State} (h : s.mem.wf) : scroll s = .next (scrolled s) := by
  simp only [scroll, if_pos h]; rfl

/-- SCROLL answers a next state only from a whole grid. -/
theorem scroll_eq_next {s t : State} : scroll s = .next t ↔ s.mem.wf ∧ t = scrolled s := by
  by_cases h : s.mem.wf
  · rw [scroll_of_wf h]; simp [h, eq_comm]
  · simp [scroll, h]

theorem length_keptCells {m : Memory} (h : m.wf) : (keptCells m).length = 1920 := by
  simp [keptCells, h.length_toCells]

theorem wf_scrolledMem {m : Memory} (h : m.wf) (c : Byte) : (scrolledMem m c).wf :=
  Memory.wf_ofCells (by simp [length_keptCells h])

/-- R126's net effect. -/
theorem readCell_scrolledMem {m : Memory} (h : m.wf) (c : Byte) (i : Nat) :
    (scrolledMem m c).readCell i =
      if i < 1920 then m.readCell (i + 80) else if i < 2000 then some (blank c) else none := by
  simp only [scrolledMem, Memory.readCell_ofCells, List.getElem?_append, length_keptCells h]
  split
  · simp [keptCells, ← h.getElem?_toCells, Nat.add_comm]
  · simp only [List.getElem?_replicate]
    split <;> split <;> first | rfl | omega

@[simp] theorem scrolled_row (s : State) : (scrolled s).row = s.row := rfl
@[simp] theorem scrolled_col (s : State) : (scrolled s).col = s.col := rfl
@[simp] theorem scrolled_color (s : State) : (scrolled s).color = s.color := rfl
@[simp] theorem scrolled_mem (s : State) : (scrolled s).mem = scrolledMem s.mem s.color := rfl
@[simp] theorem scrolled_host (s : State) : (scrolled s).host = s.host := rfl
@[simp] theorem scrolled_observed (s : State) : (scrolled s).observed = s.observed := rfl
@[simp] theorem scrolled_log (s : State) : (scrolled s).log = s.log ++ scrollLog s.mem s.color := rfl
@[simp] theorem scrolled_scrolls (s : State) : (scrolled s).scrolls = s.scrolls + 1 := rfl
@[simp] theorem scrolled_resets (s : State) : (scrolled s).resets = s.resets := rfl

/-- SCROLL's store trace: every cell once, ascending (R126). -/
theorem storesOf_scrollLog {m : Memory} (h : m.wf) (c : Byte) :
    storesOf (scrollLog m c) =
      (List.range' 0 1920).zip (keptCells m) ++ (List.range' 1920 80).map fun j => (j, blank c) := by
  simp [scrollLog, storesOf_copyLog, storesOf_fillLog, length_keptCells h]

theorem readsOf_scrollLog {m : Memory} (h : m.wf) (c : Byte) :
    readsOf (scrollLog m c) = (List.range' 80 1920).zip (keptCells m) := by
  simp [scrollLog, readsOf_copyLog, length_keptCells h]

/-! LINEFEED (R124). -/

theorem row_eq_24 {r : BitVec 5} (h : r.toNat = 24) : r = 24#5 := by
  apply BitVec.eq_of_toNat_eq; simpa using h

theorem col_eq_79 {c : BitVec 7} (h : c.toNat = 79) : c = 79#7 := by
  apply BitVec.eq_of_toNat_eq; simpa using h

theorem toNat_row_succ {r : BitVec 5} (h : r.toNat < 25) : (r + 1#5).toNat = r.toNat + 1 := by
  simp [BitVec.toNat_add]; omega

theorem toNat_col_succ {c : BitVec 7} (h : c.toNat < 80) : (c + 1#7).toNat = c.toNat + 1 := by
  simp [BitVec.toNat_add]; omega

theorem rowFull_iff (s : State) : s.rowFull = true ↔ s.row.toNat = 25 := by
  simp [State.rowFull, ← BitVec.toNat_inj, Config.rows]

theorem colFull_iff (s : State) : s.colFull = true ↔ s.col.toNat = 80 := by
  simp [State.colFull, ← BitVec.toNat_inj, Config.columns]

/-- Above the last row LINEFEED only steps down. -/
theorem lineFeed_of_lt {s : State} (h : s.row.toNat < 24) : lineFeed s = .next (s.withRow (s.row + 1#5)) := by
  have : (s.withRow (s.row + 1#5)).rowFull = false := by
    rw [Bool.eq_false_iff, Ne, rowFull_iff, State.withRow_row, toNat_row_succ (by omega)]; omega
  simp [lineFeed, this]

/-- On the last row LINEFEED scrolls once and stays. -/
theorem lineFeed_of_last {s : State} (h : s.row.toNat = 24) (hm : s.mem.wf) :
    lineFeed s = .next ((scrolled s).withRow 24#5) := by
  have hf : (s.withRow (s.row + 1#5)).rowFull = true := by
    rw [rowFull_iff, State.withRow_row, toNat_row_succ (by omega)]; omega
  simp only [lineFeed, hf, if_true]
  rw [scroll_of_wf (by simpa using hm)]
  rfl

/-- What a next state of LINEFEED is, from any state. -/
theorem lineFeed_eq_next {s t : State} (h : lineFeed s = .next t) :
    (s.row + 1#5 ≠ 25#5 ∧ t = s.withRow (s.row + 1#5)) ∨
    (s.row + 1#5 = 25#5 ∧ s.mem.wf ∧ t = (scrolled s).withRow 24#5) := by
  simp only [lineFeed] at h
  split at h
  · rename_i hf
    obtain ⟨u, hu, ht⟩ := andThen_eq_next.mp h
    obtain ⟨hw, rfl⟩ := scroll_eq_next.mp hu
    refine .inr ⟨by simpa [State.rowFull] using hf, by simpa using hw, ?_⟩
    cases ht; rfl
  · rename_i hf
    cases h
    exact .inl ⟨by simpa [State.rowFull] using hf, rfl⟩

/-! ADVANCE (R120 to R123). -/

theorem classify_newline : classify 0x0A#8 = .newline := rfl
theorem classify_return : classify 0x0D#8 = .carriageReturn := rfl
theorem classify_printable {ch : Byte} (h : ch ≠ 0x0A#8) (h' : ch ≠ 0x0D#8) : classify ch = .printable := by
  simp [classify, Config.chNewline, Config.chCr, h, h']

theorem advance_newline (s : State) : advance 0x0A#8 s = lineFeed (s.withCol 0#7) := rfl
theorem advance_return (s : State) : advance 0x0D#8 s = .next (s.withCol 0#7) := rfl
theorem advance_printable {ch : Byte} (h : ch ≠ 0x0A#8) (h' : ch ≠ 0x0D#8) (s : State) :
    advance ch s = advancePrintable ch s := by
  simp [advance, classify_printable h h']

/-- The state a printable character's store leaves (R125). -/
def stored (ch : Byte) (s : State) : State :=
  (s.withMem (s.mem.setCell (idx s.row.toNat s.col.toNat) (encodeCell ch s.color))).logged
    [.write (idx s.row.toNat s.col.toNat) (encodeCell ch s.color)]

@[simp] theorem stored_row (ch : Byte) (s : State) : (stored ch s).row = s.row := rfl
@[simp] theorem stored_col (ch : Byte) (s : State) : (stored ch s).col = s.col := rfl
@[simp] theorem stored_color (ch : Byte) (s : State) : (stored ch s).color = s.color := rfl
@[simp] theorem stored_host (ch : Byte) (s : State) : (stored ch s).host = s.host := rfl
@[simp] theorem stored_observed (ch : Byte) (s : State) : (stored ch s).observed = s.observed := rfl
@[simp] theorem stored_scrolls (ch : Byte) (s : State) : (stored ch s).scrolls = s.scrolls := rfl
@[simp] theorem stored_resets (ch : Byte) (s : State) : (stored ch s).resets = s.resets := rfl
@[simp] theorem stored_mem (ch : Byte) (s : State) :
    (stored ch s).mem = s.mem.setCell (idx s.row.toNat s.col.toNat) (encodeCell ch s.color) := rfl
@[simp] theorem stored_log (ch : Byte) (s : State) :
    (stored ch s).log = s.log ++ [.write (idx s.row.toNat s.col.toNat) (encodeCell ch s.color)] := rfl

theorem advancePrintable_of_rest {s : State} (ch : Byte) (hr : s.row.toNat < 25) (hc : s.col.toNat < 80)
    (hm : s.mem.wf) :
    advancePrintable ch s =
      if s.col.toNat = 79 then lineFeed ((stored ch s).withCol 0#7) else .next ((stored ch s).withCol (s.col + 1#7)) := by
  unfold advancePrintable
  rw [storeCell_of_rest hm hr hc]
  simp only [andThen_next, colFull_iff, State.withCol_col, State.logged_col, State.withMem_col, toNat_col_succ hc]
  by_cases h : s.col.toNat = 79
  · rw [if_pos (by omega), if_pos h]; rfl
  · rw [if_neg (by omega), if_neg h]; rfl

/-- What a next state of a printable character is, from any state: the cell existed, and either the column moved on or the
line was fed. -/
theorem advancePrintable_eq_next {ch : Byte} {s t : State} (h : advancePrintable ch s = .next t) :
    (s.mem.readCell (idx s.row.toNat s.col.toNat)).isSome = true ∧
    ((s.col + 1#7 ≠ 80#7 ∧ t = (stored ch s).withCol (s.col + 1#7)) ∨
     (s.col + 1#7 = 80#7 ∧ lineFeed ((stored ch s).withCol 0#7) = .next t)) := by
  unfold advancePrintable at h
  obtain ⟨u, hu, ht⟩ := andThen_eq_next.mp h
  obtain ⟨hs, rfl⟩ := gridWrite_eq_next.mp hu
  refine ⟨hs, ?_⟩
  dsimp only at ht
  split at ht
  · rename_i hf
    exact .inr ⟨by simpa [State.colFull] using hf, ht⟩
  · rename_i hf
    cases ht
    exact .inl ⟨by simpa [State.colFull] using hf, rfl⟩

end Sys2Proof.Machine
end

