-- ==== Sys2Proof/Laws/PerInstr.lean ====
section
/-! SUPPORT. Per command: its word matches its own row of the opcode map (30_encoding.md R83), whatever its operands. -/

namespace Sys2Proof.Laws.EncodesInRow

open Sys2Proof

/-- `encode i & mask == match` for the row of `i`. -/
def Statement (i : Instr) : Prop := encode i &&& i.row.mask = i.row.pattern

theorem init : Statement .init := by unfold Statement; decide

theorem clear : Statement .clear := by unfold Statement; decide

theorem setcolor (attr : Byte) : Statement (.setcolor attr) := by
  apply BitVec.eq_of_getLsbD_eq
  intro i hi
  simp only [encode, Instr.row, rowSetcolor, BitVec.getLsbD_and, BitVec.getLsbD_or, BitVec.getLsbD_setWidth]
  interval_cases i <;> simp

theorem setcolorfb (fg bg : ColorIndex) : Statement (.setcolorfb fg bg) := by
  apply BitVec.eq_of_getLsbD_eq
  intro i hi
  simp only [encode, Instr.row, rowSetcolorfb, BitVec.getLsbD_and, BitVec.getLsbD_or, BitVec.getLsbD_setWidth, BitVec.getLsbD_shiftLeft]
  interval_cases i <;> simp

theorem wrch (ch : Byte) : Statement (.wrch ch) := by
  apply BitVec.eq_of_getLsbD_eq
  intro i hi
  simp only [encode, Instr.row, rowWrch, BitVec.getLsbD_and, BitVec.getLsbD_or, BitVec.getLsbD_setWidth]
  interval_cases i <;> simp

theorem wrchc (ch attr : Byte) : Statement (.wrchc ch attr) := by
  apply BitVec.eq_of_getLsbD_eq
  intro i hi
  simp only [encode, Instr.row, rowWrchc, BitVec.getLsbD_and, BitVec.getLsbD_or, BitVec.getLsbD_setWidth, BitVec.getLsbD_shiftLeft]
  interval_cases i <;> simp

theorem setcursor (row col : Int) : Statement (.setcursor row col) := by
  apply BitVec.eq_of_getLsbD_eq
  intro i hi
  simp only [encode, Instr.row, rowSetcursor, BitVec.getLsbD_and, BitVec.getLsbD_or, BitVec.getLsbD_setWidth, BitVec.getLsbD_shiftLeft]
  interval_cases i <;> simp

end Sys2Proof.Laws.EncodesInRow
end

