-- ==== Sys2Proof/Laws/Port.lean ====
section
/-! SUPPORT. The host port: what a hardware reset leaves, and the step by the host's next event. -/

namespace Sys2Proof.Machine

@[simp] theorem hardReset_row (s : State) : (hardReset s).row = 0#5 := rfl
@[simp] theorem hardReset_col (s : State) : (hardReset s).col = 0#7 := rfl
@[simp] theorem hardReset_color (s : State) : (hardReset s).color = defaultAttr := rfl
@[simp] theorem hardReset_mem (s : State) : (hardReset s).mem = resetMemory (s.resets + 1) := by simp only [hardReset]
@[simp] theorem hardReset_host (s : State) : (hardReset s).host = s.host := rfl
@[simp] theorem hardReset_observed (s : State) : (hardReset s).observed = s.observed := rfl
@[simp] theorem hardReset_log (s : State) : (hardReset s).log = [] := rfl
@[simp] theorem hardReset_scrolls (s : State) : (hardReset s).scrolls = 0 := rfl
@[simp] theorem hardReset_resets (s : State) : (hardReset s).resets = s.resets + 1 := rfl

theorem hostEvent_reset (s : State) : hostEvent .reset s = .next (hardReset s) := rfl

/-- Every byte of the grid after a reset is its free value. -/
theorem read_resetMemory (n : Nat) {a : Nat} (h : a < 4000) : (resetMemory n).read a = some (Config.resetByte n a) := by
  have key : ∀ (l : List Nat), a ∈ l →
      Memory.read (l.map fun a => (a, Config.resetByte n a)) a = some (Config.resetByte n a) := by
    intro l
    induction l with
    | nil => simp
    | cons b l ih =>
      intro hl
      simp only [List.map_cons, Memory.read]
      split
      · rename_i e; rw [e]
      · rename_i e; exact ih ((List.mem_cons.mp hl).resolve_left e)
  exact key _ (List.mem_range.mpr h)

/-- A step by its cases: no event, or the next event of the host. -/
theorem step_nil {s : State} (h : s.host = []) : step s = .next s := by simp [step, serveHost, h]

theorem step_cons {s : State} {e : HostEvent} {rest : List HostEvent} (h : s.host = e :: rest) :
    step s = hostEvent e (s.withHost rest) := by simp [step, serveHost, h]

end Sys2Proof.Machine
end

