-- ==== Sys2Proof/Tests/Slice0.lean ====
section
/-! SUPPORT. The model's own tests: well-formedness, decoding, one step per test, and for each statement with hypotheses a
concrete state and operands that meet them. Expected values: spec/95_test_vectors.md (ids in the comments) or the rule named. -/

namespace Sys2Proof.Tests

open Machine

set_option maxRecDepth 8000

/-! WellFormed: each bound of R89's two fields refuses the next integer (R96). -/

theorem test_wellFormed_row_low : Instr.check (.setcursor (-2049) 0) = false := by decide
theorem test_wellFormed_row_high : Instr.check (.setcursor 2048 0) = false := by decide
theorem test_wellFormed_col_low : Instr.check (.setcursor 0 (-2049)) = false := by decide
theorem test_wellFormed_col_high : Instr.check (.setcursor 0 2048) = false := by decide
theorem test_wellFormed_bounds_admitted :
    Instr.check (.setcursor (-2048) 2047) = true ∧ Instr.check (.setcursor 2047 (-2048)) = true := by decide

/-! Decode: words written out bit by bit from R82's formats (V-D1 to V-D17). -/

-- V-D1, V-D2
theorem test_decode_surface : decode 0b00000001000000000000000000000000#32 = .ok .init ∧
    decode 0b00000010000000000000000000000000#32 = .ok .clear := by decide
-- V-D3, V-D5: op, 12 or 16 zeros, bg and fg in their own nibbles
theorem test_decode_color : decode 0b00000011000000000000000001001110#32 = .ok (.setcolor 0x4E#8) ∧
    decode 0b00000100000000000000010000001110#32 = .ok (.setcolorfb 14#4 4#4) := by decide
-- V-D8, V-D10
theorem test_decode_write : decode 0b00000101000000000000000000001010#32 = .ok (.wrch 0x0A#8) ∧
    decode 0b00000101000000010001111101011010#32 = .ok (.wrchc 0x5A#8 0x1F#8) := by decide
-- V-D14, V-D15, V-D16
theorem test_decode_cursor : decode 0b00000110111111111111111111111111#32 = .ok (.setcursor (-1) (-1)) ∧
    decode 0b00000110011111111111100000000000#32 = .ok (.setcursor 2047 (-2048)) ∧
    decode 0b00000110111111111011000001100100#32 = .ok (.setcursor (-5) 100) := by decide
-- V-D20 to V-D29
theorem test_decode_reserved :
    decode 0x00000000#32 = .error (.unassignedOpcode 0x00#8) ∧ decode 0x07000000#32 = .error (.unassignedOpcode 0x07#8) ∧
    decode 0xFFFFFFFF#32 = .error (.unassignedOpcode 0xFF#8) ∧ decode 0x01000001#32 = .error (.mustBeZeroBitSet 0x01#8) ∧
    decode 0x02800000#32 = .error (.mustBeZeroBitSet 0x02#8) ∧ decode 0x03000100#32 = .error (.mustBeZeroBitSet 0x03#8) ∧
    decode 0x0400001E#32 = .error (.mustBeZeroBitSet 0x04#8) ∧ decode 0x04001000#32 = .error (.mustBeZeroBitSet 0x04#8) ∧
    decode 0x05000141#32 = .error (.mustBeZeroBitSet 0x05#8) ∧
    decode 0x05020041#32 = .error (.mustBeZeroBitSet 0x05#8) := by decide
-- the accepted neighbours of 2.2
theorem test_decode_neighbours : decode 0x0400000E#32 = .ok (.setcolorfb 14#4 0#4) ∧
    decode 0x05010141#32 = .ok (.wrchc 0x41#8 0x01#8) ∧ decode 0x06000000#32 = .ok (.setcursor 0 0) := by decide
-- R93: three bytes are no command
theorem test_decode_bytes_short : decodeBytes [0#8, 0#8, 0#8] = .error (.notOneWord 3) := by decide
-- V-D10 in CMD's byte order (R55)
theorem test_decode_bytes_order : decodeBytes [0x5A#8, 0x1F#8, 0x01#8, 0x05#8] = .ok (.wrchc 0x5A#8 0x1F#8) := by decide
theorem test_decode_table_word : decodeTableWord 32 0x06FFB064 = some (.setcursor (-5) 100) := by decide
-- V-D13, V-D14
theorem test_encode_cursor : encode (.setcursor 25 80) = 0x06019050#32 ∧ encode (.setcursor (-1) (-1)) = 0x06FFFFFF#32 := by
  decide

/-! One step. The start state: every cell `v`, the cursor and the colour given. -/

/-- A state at rest whose grid is all `v`. -/
def screen (v : GridCell) (row : BitVec 5) (col : BitVec 7) (color : Byte) : State :=
  { State.reset with row := row, col := col, color := color, mem := Memory.ofCells (List.replicate 2000 v) }

theorem screen_wf (v : GridCell) (row : BitVec 5) (col : BitVec 7) (color : Byte) : (screen v row col color).mem.wf :=
  Memory.wf_ofCells List.length_replicate

theorem screen_rest (v : GridCell) (row : BitVec 5) (col : BitVec 7) (color : Byte) (hr : row.toNat < 25)
    (hc : col.toNat < 80) : (screen v row col color).AtRest :=
  ⟨hr, hc, screen_wf v row col color⟩

/-- Cursor, colour and scroll count of a next state. -/
def regsAre (r : Result) (row : BitVec 5) (col : BitVec 7) (color : Byte) (scrolls : Nat) : Bool :=
  match r with
  | .next t => t.row == row && t.col == col && t.color == color && t.scrolls == scrolls
  | .fault _ => false
  | .refused _ => false

/-- One cell of a next state. -/
def cellIs (r : Result) (i : Nat) (v : GridCell) : Bool :=
  match r with
  | .next t => t.cell i == some v
  | .fault _ => false
  | .refused _ => false

/-- One step after the word is presented to CMD. -/
def run (w : Nat) (s : State) : Result := step (s.withFetchWord 32 w)

-- S1
theorem test_init_registers : regsAre (run 0x01000000 (screen 0x4E41#16 24#5 79#7 0x4E#8)) 0#5 0#7 0x07#8 0 = true := by decide
theorem test_init_first_cell : cellIs (run 0x01000000 (screen 0x4E41#16 24#5 79#7 0x4E#8)) 0 0x0720#16 = true := by decide
-- V-M9
theorem test_clear_registers : regsAre (run 0x02000000 (screen 0x0741#16 7#5 3#7 0x2A#8)) 0#5 0#7 0x2A#8 0 = true := by decide
theorem test_clear_cell : cellIs (run 0x02000000 (screen 0x0741#16 7#5 3#7 0x2A#8)) 1 0x2A20#16 = true := by decide
-- V-M3: zero is applied
theorem test_setcolor_zero : regsAre (run 0x03000000 (screen 0x0720#16 3#5 4#7 0x4E#8)) 3#5 4#7 0x00#8 0 = true := by decide
-- V-M2
theorem test_setcolorfb : regsAre (run 0x0400040E (screen 0x0720#16 3#5 4#7 0x07#8)) 3#5 4#7 0x4E#8 0 = true := by decide
-- V-E14
theorem test_wrch_cell : cellIs (run 0x05000058 (screen 0x0720#16 2#5 5#7 0x4E#8)) 165 0x4E58#16 = true := by decide
-- V-E4
theorem test_wrch_wraps : regsAre (run 0x05000078 (screen 0x0720#16 5#5 79#7 0x07#8)) 6#5 0#7 0x07#8 0 = true := by decide
-- V-E9, V-E8
theorem test_wrch_newline : regsAre (run 0x0500000A (screen 0x0720#16 23#5 40#7 0x07#8)) 24#5 0#7 0x07#8 0 = true := by decide
theorem test_wrch_return : regsAre (run 0x0500000D (screen 0x0720#16 24#5 5#7 0x07#8)) 24#5 0#7 0x07#8 0 = true := by decide
-- V-M4: a colour of zero that is present is applied
theorem test_wrchc_zero : cellIs (run 0x05010041 (screen 0x0720#16 0#5 0#7 0x07#8)) 0 0x0041#16 = true := by decide
-- V-M8
theorem test_wrchc_return : regsAre (run 0x05014E0D (screen 0x0720#16 0#5 9#7 0x07#8)) 0#5 0#7 0x4E#8 0 = true := by decide
-- V-K4, V-K8
theorem test_setcursor_high : regsAre (run 0x06019050 (screen 0x0720#16 0#5 0#7 0x07#8)) 24#5 79#7 0x07#8 0 = true := by decide
theorem test_setcursor_mixed : regsAre (run 0x06FFB064 (screen 0x0720#16 9#5 9#7 0x07#8)) 0#5 79#7 0x07#8 0 = true := by decide

/-- V-E6, P2: the store comes before the scroll. Through the lemmas of Laws/Ops.lean: the whole grid is moved. -/
theorem test_wrchc_last_cell : ∃ t, exec (.wrchc 0x5A#8 0x1F#8) (screen 0x0720#16 24#5 79#7 0x07#8) = .next t ∧
    t.row = 24#5 ∧ t.col = 0#7 ∧ t.color = 0x1F#8 ∧ t.scrolls = 1 ∧ t.cell 1918 = some 0x0720#16 ∧
    t.cell 1919 = some 0x1F5A#16 ∧ t.cell 1920 = some 0x1F20#16 ∧ t.cell 1999 = some 0x1F20#16 := by
  have hw := (screen_wf 0x0720#16 24#5 79#7 0x07#8).setCell 1999 0x1F5A#16
  have hc : ∀ i, (screen 0x0720#16 24#5 79#7 0x07#8).mem.readCell i = if i < 2000 then some 0x0720#16 else none := by
    intro i
    show (Memory.ofCells (List.replicate 2000 0x0720#16)).readCell i = _
    rw [Memory.readCell_ofCells, List.getElem?_replicate]
  have h : exec (.wrchc 0x5A#8 0x1F#8) (screen 0x0720#16 24#5 79#7 0x07#8) = .next ((scrolled ((stored 0x5A#8
      ((screen 0x0720#16 24#5 79#7 0x07#8).withColor 0x1F#8)).withCol 0#7)).withRow 24#5) := by
    show advance 0x5A#8 ((screen 0x0720#16 24#5 79#7 0x07#8).withColor 0x1F#8) = _
    rw [advance_printable (by decide) (by decide),
      advancePrintable_of_rest (s := (screen 0x0720#16 24#5 79#7 0x07#8).withColor 0x1F#8) _ (by decide) (by decide)
        (screen_wf 0x0720#16 24#5 79#7 0x07#8)]
    refine (if_pos (by decide)).trans ?_
    exact lineFeed_of_last (s := (stored 0x5A#8 ((screen 0x0720#16 24#5 79#7 0x07#8).withColor 0x1F#8)).withCol 0#7) rfl hw
  refine ⟨_, h, rfl, rfl, rfl, rfl, ?_⟩
  show (scrolledMem ((screen 0x0720#16 24#5 79#7 0x07#8).mem.setCell 1999 0x1F5A#16) 0x1F#8).readCell 1918 = _ ∧
    (scrolledMem ((screen 0x0720#16 24#5 79#7 0x07#8).mem.setCell 1999 0x1F5A#16) 0x1F#8).readCell 1919 = _ ∧
    (scrolledMem ((screen 0x0720#16 24#5 79#7 0x07#8).mem.setCell 1999 0x1F5A#16) 0x1F#8).readCell 1920 = _ ∧
    (scrolledMem ((screen 0x0720#16 24#5 79#7 0x07#8).mem.setCell 1999 0x1F5A#16) 0x1F#8).readCell 1999 = _
  simp only [readCell_scrolledMem hw, Memory.readCell_setCell, hc]
  decide

/-! The host port and reset. -/

-- V-K3: CURSOR
theorem test_cursor_reads : cursorReg (screen 0x0720#16 24#5 79#7 0x07#8) = 0x0000184F#32 := by decide
-- V-M1: COLOR
theorem test_color_reads : colorReg (screen 0x0720#16 0#5 0#7 0x4E#8) = 0x0000004E#32 := by decide
-- V-R1
theorem test_reset_reads : cursorReg State.reset = 0x00000000#32 ∧ colorReg State.reset = 0x00000007#32 := by decide
-- V-R2
theorem test_reset_wrch : cellIs (run 0x05000041 State.reset) 0 0x0741#16 = true := by decide
-- V-D20 as the first step after reset
theorem test_reset_reserved : regsAre (run 0x00000000 State.reset) 0#5 0#7 0x07#8 0 = true := by decide
-- R60: a host store into the grid
theorem test_host_store_refused : hostWrite .grid 0 [0x41#8] State.reset = .refused (.hostWritesGrid 0) := rfl
-- 95_test_vectors.md 2.1, byte view: cell (24, 79) is at GRID_BASE + 3998
theorem test_bus_last_cell : (Layout.mk 0xB8000 0xC0000 20).locate 0xB8F9E = some (.grid, 3998) := by decide

/-! The codec (V-C1, V-C8, V-C9, V-C13, V-C16). -/

theorem test_codec : encodeCell 0x41#8 0x07#8 = 0x0741#16 ∧ encodeAttribute 15#4 0#4 = 0x0F#8 ∧
    encodeAttribute 0#4 15#4 = 0xF0#8 ∧ fgOf 0x4E#8 = 14#4 ∧ bgOf 0x4E#8 = 4#4 ∧ blank 0xFF#8 = 0xFF20#16 := by decide

/-! The stream pseudo-instructions and the assembler. -/

-- V-W5, V-W6
theorem test_wrstr_stops_at_zero : wrbytes [0x41#8, 0#8, 0x42#8] = [.wrch 0x41#8, .wrch 0#8, .wrch 0x42#8] ∧
    wrstr [0x41#8, 0#8, 0x42#8] = .ok [.wrch 0x41#8] := by decide
-- V-W8
theorem test_wrstr_unterminated : wrstr [0x41#8] = .error .noTerminator := by decide
-- V-D16, the text of R94
theorem test_assemble_setcursor : assembleLine
    ['s', 'e', 't', 'c', 'u', 'r', 's', 'o', 'r', ' ', '-', '5', ',', ' ', '1', '0', '0', ' ', ';', ' ', 'x'] =
    .ok [0x06FFB064#32] := by decide
-- V-D10
theorem test_assemble_wrchc : assembleLine
    ['w', 'r', 'c', 'h', 'c', ' ', quote1, 'Z', quote1, ',', ' ', '0', 'x', '1', 'F'] = .ok [0x05011F5A#32] := by decide
-- V-W3
theorem test_assemble_wrstr : assembleLine
    ['w', 'r', 's', 't', 'r', ' ', quote2, 'H', 'i', backslash, 'n', quote2] =
    .ok [0x05000048#32, 0x05000069#32, 0x0500000A#32] := by decide
-- R96, V-C17: fg 16 is refused
theorem test_assemble_out_of_range : assembleLine
    ['s', 'e', 't', 'c', 'o', 'l', 'o', 'r', 'f', 'b', ' ', '1', '6', ',', '0'] = .error .operandRange := by decide

-- log entry 12 (the model's choice): a quoted character of code 256 is a coordinate, and no character operand
theorem test_assemble_wide_character : (∃ ws, assembleLine
      ['s', 'e', 't', 'c', 'u', 'r', 's', 'o', 'r', ' ', quote1, Char.ofNat 256, quote1, ',', '0'] = .ok ws) ∧
    assembleLine ['w', 'r', 'c', 'h', ' ', quote1, Char.ofNat 256, quote1] = .error .operandRange :=
  ⟨⟨[0x06100000#32], by decide⟩, by decide⟩

/-! Witnesses: for each statement with hypotheses, a state and operands that meet them. -/

/-- A plain state at rest. -/
def home : State := screen 0x0720#16 0#5 0#7 0x07#8
/-- The cursor on the last row. -/
def lastLine : State := screen 0x0720#16 24#5 0#7 0x07#8
/-- The cursor on the last cell. -/
def lastCell : State := screen 0x0720#16 24#5 79#7 0x07#8

theorem home_rest : home.AtRest := screen_rest _ _ _ _ (by decide) (by decide)
theorem lastLine_rest : lastLine.AtRest := screen_rest _ _ _ _ (by decide) (by decide)
theorem lastCell_rest : lastCell.AtRest := screen_rest _ _ _ _ (by decide) (by decide)

/-- The host is about to issue SETCOLOR 0x4E. -/
def presented : State := presentWord 0x0300004E#32 home

theorem presented_steps : step presented = .next (home.withColor 0x4E#8) := rfl

theorem witness_OpcodeMapRowsAreDisjoint : rowWrchc ∈ opRows ∧ 0x05011F5A#32 &&& rowWrchc.mask = rowWrchc.pattern ∧
    decode 0x05011F5A#32 = .ok (.wrchc 0x5A#8 0x1F#8) := by decide

theorem witness_DecodeIsByOpcodeCases : decode 0x06FFB064#32 = .ok (.setcursor (-5) 100) ∧
    decode 0x05020041#32 = .error (.mustBeZeroBitSet 0x05#8) := by decide

theorem witness_ReservedWordsAreIgnored : decode 0x07000000#32 = .error (.unassignedOpcode 0x07#8) ∧
    decode 0x0400001E#32 = .error (.mustBeZeroBitSet 0x04#8) := by decide

theorem witness_DecodeOfEncodeIsTheCommand : (Instr.setcursor (-2048) 2047).wellFormed ∧
    (Instr.setcursor 2047 (-2048)).wellFormed ∧ (Instr.setcolorfb 15#4 15#4).wellFormed := by decide

theorem witness_EncodeOfDecodeIsTheWord : decode 0x067FF800#32 = .ok (.setcursor 2047 (-2048)) := by decide

theorem witness_CommandBytesAreLittleEndian : ([] : List Byte).length ≠ 4 ∧ [0#8, 0#8, 0#8].length ≠ 4 ∧
    [0#8, 0#8, 0#8, 0#8, 0#8].length ≠ 4 := by decide

theorem witness_StepRunsTheDecodedCommand : presented.host = [.write .regs 0 (bytesOfWord 0x0300004E#32)] ∧
    decode 0x0300004E#32 = .ok (.setcolor 0x4E#8) ∧ 0x0300004E < 2 ^ 32 ∧
    decode (BitVec.ofNat 32 0x0300004E) = .ok (.setcolor 0x4E#8) := ⟨rfl, by decide, by decide, by decide⟩

theorem witness_StepWithoutHostEventKeepsState : home.host = [] := rfl

/-- A state that no run reaches, in which a store faults. -/
theorem witness_OutcomeDependsOnlyOnCommandAndS : SameS home presented ∧
    (∃ t, exec (.wrch 0x41#8) home = .next t) ∧
    exec (.wrch 0x41#8) (home.withMem []) = .fault (.cellOutsideGrid 0) :=
  ⟨⟨rfl, rfl, rfl, rfl⟩, ⟨_, (advance_printable (by decide) (by decide) home).trans
    ((advancePrintable_of_rest 0x41#8 (by decide) (by decide) home_rest.2.2).trans (if_neg (by decide)))⟩, rfl⟩

theorem witness_EveryCommandCompletesFromRest : home.AtRest ∧ lastCell.AtRest := ⟨home_rest, lastCell_rest⟩

theorem witness_StepKeepsRest : presented.AtRest ∧ step presented = .next (home.withColor 0x4E#8) :=
  ⟨home_rest, presented_steps⟩

/-- The machine at reset, about to take SETCOLOR 0x4E. -/
theorem witness_StepKeepsLogFaithful : (presentWord 0x0300004E#32 State.reset).LogFaithful ∧
    step (presentWord 0x0300004E#32 State.reset) = .next (State.reset.withColor 0x4E#8) :=
  ⟨⟨State.reset_mem.symm, trivial⟩, rfl⟩

theorem witness_TraceReplaysToTheGrid : home.mem.wf ∧ Continues (exec .init home) := ⟨home_rest.2.2, ⟨_, rfl⟩⟩

theorem witness_CmdWriteExecutesAndReadsZero : decode 0x06000000#32 = .ok (.setcursor 0 0) ∧
    decode 0x07000000#32 = .error (.unassignedOpcode 0x07#8) := by decide

theorem witness_CursorRegisterViewsTheCursor : home.AtRest ∧ lastCell.AtRest ∧
    step (presentWord 0x06019050#32 home) = .next ((home.withRow 24#5).withCol 79#7) ∧
    ((home.withRow 24#5).withCol 79#7).row ≠ (presentWord 0x06019050#32 home).row :=
  ⟨home_rest, lastCell_rest, rfl, by decide⟩

theorem witness_ColorRegisterViewsTheColour : step presented = .next (home.withColor 0x4E#8) ∧
    (home.withColor 0x4E#8).color ≠ presented.color := ⟨presented_steps, by decide⟩

/-- Each clause at the edges of the block. -/
theorem witness_OtherHostAccessesAreRefused : ¬(1 = 4 ∧ (0 = 0 ∨ 0 = 4 ∨ 0 = 8)) ∧ ¬(4 = 4 ∧ (12 = 0 ∨ 12 = 4 ∨ 12 = 8)) ∧
    ¬([0x41#8].length = 4 ∧ (0 = 0 ∨ 0 = 4 ∨ 0 = 8)) ∧ (8 = 0 ∨ 8 = 4 ∨ 8 = 8) := by decide

theorem witness_CellIndexIsBijective : 24 < 25 ∧ 79 < 80 ∧ 1999 < 2000 := by decide

/-- The tightest platform: the regions adjoin and end with the address space. -/
theorem witness_PhysicalAddressesReachTheirCells : (Layout.mk 4192 4180 13).Valid ∧ 24 < 25 ∧ 79 < 80 ∧
    (¬(4192 ≤ 4179 ∧ 4179 ≤ 4192 + 3999) ∧ ¬(4180 ≤ 4179 ∧ 4179 < 4180 + 12)) ∧ home.mem.wf ∧ 1999 < 2000 :=
  ⟨by decide, by decide, by decide, by decide, home_rest.2.2, by decide⟩

theorem witness_BusAccessesAreAligned : (Layout.mk 4192 4180 13).Valid ∧
    ((Layout.mk 4192 4180 13).locate 8191 = some (.grid, 3999) ∧ 8191 % 2 ≠ 0) ∧
    ((Layout.mk 4192 4180 13).locate 4182 = some (.regs, 2) ∧ 4182 % [0#8, 0#8, 0#8, 0#8].length ≠ 0) := by decide

theorem witness_HostReadsOfTheGrid : home.mem.wf ∧ 1999 < 2000 ∧ (1998 < 2000 ∧ 1998 % 2 = 0) ∧
    ¬(3998 < 4000 ∧ (4 = 1 ∨ (4 = 2 ∧ 3998 % 2 = 0) ∨ (4 = 4 ∧ 3998 % 4 = 0))) ∧
    ¬(4000 < 4000 ∧ (1 = 1 ∨ (1 = 2 ∧ 4000 % 2 = 0) ∨ (1 = 4 ∧ 4000 % 4 = 0))) :=
  ⟨home_rest.2.2, by decide, by decide, by decide, by decide⟩

theorem witness_ReadsHaveNoSideEffect : hostRead .regs 4 4 home = .next (home.observe (.word 0#32)) ∧
    Continues (hostRead .grid 0 2 home) := ⟨rfl, ⟨_, rfl⟩⟩

theorem witness_CellPacksGlyphLowAttrHigh : encodeCell 0xFF#8 0x00#8 = encodeCell 0xFF#8 0x00#8 := rfl

theorem witness_AttrPacksForegroundLowBackgroundHigh : encodeAttribute 15#4 0#4 = encodeAttribute 15#4 0#4 := rfl

theorem witness_ScrollShiftsUpAndBlanksTheLastRow : lastCell.mem.wf ∧ Continues (exec (.wrch 0x0A#8) lastLine) :=
  ⟨lastCell_rest.2.2, ⟨_, lineFeed_of_last (s := lastLine.withCol 0#7) rfl lastLine_rest.2.2⟩⟩

theorem witness_ScrollLoopsEqualNetEffect : lastLine.mem.wf := lastLine_rest.2.2

theorem witness_FillLoopEqualsNetEffect : home.mem.wf := home_rest.2.2

/-- The values on both sides of each bound of R129's table. -/
theorem witness_ClampIsNearestInRange : ((-1 : Int) < 0 ∧ (24 : Int) < 25 ∧ (0 : Int) ≤ 0 ∧ (24 : Int) ≤ 24) ∧
    ((79 : Int) < 80 ∧ (0 : Int) ≤ 79 ∧ (79 : Int) ≤ 79) := by decide

theorem witness_ScrollCountOfPrintableText : Continues (advance 0x0A#8 home) ∧ home.AtRest ∧ home.row.toNat = 0 ∧
    home.col.toNat = 0 ∧ ∀ b ∈ [0x00#8, 0x09#8, 0xFF#8], printable b :=
  ⟨⟨_, rfl⟩, home_rest, rfl, rfl, by decide⟩

theorem witness_InitEndsInTheDefaultScreen : Continues (exec .init lastCell) := ⟨_, rfl⟩

theorem witness_NewlineFeedsALine : (home.AtRest ∧ home.row.toNat < 24) ∧ (lastLine.AtRest ∧ lastLine.row.toNat = 24) :=
  ⟨⟨home_rest, by decide⟩, ⟨lastLine_rest, by decide⟩⟩

/-- One state for each case of R123: in the row, at its end, on the last cell. -/
theorem witness_PrintableStoresThenAdvances : printable 0x00#8 ∧ (home.AtRest ∧ home.col.toNat < 79) ∧
    ((screen 0x0720#16 23#5 79#7 0x07#8).AtRest ∧ (screen 0x0720#16 23#5 79#7 0x07#8).col.toNat = 79 ∧
      (screen 0x0720#16 23#5 79#7 0x07#8).row.toNat < 24) ∧
    (lastCell.AtRest ∧ lastCell.col.toNat = 79 ∧ lastCell.row.toNat = 24) :=
  ⟨by decide, ⟨home_rest, by decide⟩, ⟨screen_rest _ _ _ _ (by decide) (by decide), by decide, by decide⟩,
    ⟨lastCell_rest, by decide, by decide⟩⟩

/-- One state and code for each class of character, and for each case of the newline and the printable one. -/
theorem witness_WrchcSetsTheColourThenWrites :
    (home.AtRest ∧ (0x0A : Byte) = 0x0A#8 ∧ (home.withColor 0x1F#8).row.toNat < 24) ∧
    (lastLine.AtRest ∧ (0x0A : Byte) = 0x0A#8 ∧ (lastLine.withColor 0x1F#8).row.toNat = 24) ∧
    (lastLine.AtRest ∧ (0x0D : Byte) = 0x0D#8) ∧
    (home.AtRest ∧ printable 0x5A#8 ∧ (home.withColor 0x1F#8).col.toNat < 79) ∧
    ((screen 0x0720#16 23#5 79#7 0x07#8).AtRest ∧ printable 0x5A#8 ∧
      ((screen 0x0720#16 23#5 79#7 0x07#8).withColor 0x1F#8).col.toNat = 79 ∧
      ((screen 0x0720#16 23#5 79#7 0x07#8).withColor 0x1F#8).row.toNat < 24) ∧
    (lastCell.AtRest ∧ printable 0x5A#8 ∧ (lastCell.withColor 0x00#8).col.toNat = 79 ∧
      (lastCell.withColor 0x00#8).row.toNat = 24) :=
  ⟨⟨home_rest, rfl, by decide⟩, ⟨lastLine_rest, rfl, by decide⟩, ⟨lastLine_rest, rfl⟩,
    ⟨home_rest, by decide, by decide⟩,
    ⟨screen_rest _ _ _ _ (by decide) (by decide), by decide, by decide, by decide⟩,
    ⟨lastCell_rest, by decide, by decide, by decide⟩⟩

theorem witness_IdempotentCommands : ∃ r c, Instr.setcursor 25 (-1) = .setcursor r c := ⟨_, _, rfl⟩

theorem witness_AbsorptionLaws : lastCell.AtRest := lastCell_rest

/-- INIT changes the grid and the colour of a screen of other text. -/
theorem witness_OnlyTheseCommandsChangeGridOrColour :
    ∃ t, exec .init (screen 0x4E41#16 0#5 0#7 0x4E#8) = .next t ∧ t.color ≠ (screen 0x4E41#16 0#5 0#7 0x4E#8).color ∧
      t.mem ≠ (screen 0x4E41#16 0#5 0#7 0x4E#8).mem := by
  refine ⟨_, rfl, by decide, fun h => ?_⟩
  have hc := congrArg (fun m => Memory.readCell m 0) h
  exact absurd hc (by decide)

theorem witness_WrbytesFoldsWrch : lastCell.AtRest := lastCell_rest

theorem witness_WrstrStopsAtTheFirstZero : 0#8 ∉ [0x41#8, 0x42#8] ∧ 0#8 ∉ ([] : List Byte) := by decide

theorem witness_WrbytesStoreBound : lastCell.AtRest ∧ printable 0x78#8 ∧ lastCell.row.toNat = 24 ∧ lastCell.col.toNat = 79 :=
  ⟨lastCell_rest, by decide, by decide, by decide⟩

/-- The text that just fits, on the last row and on another. -/
theorem witness_TextWithinARowReadsBack :
    (home.AtRest ∧ (∀ b ∈ List.replicate 80 0x41#8, printable b) ∧ home.col.toNat + (List.replicate 80 0x41#8).length ≤ 80 ∧
      home.row.toNat < 24) ∧
    (lastLine.AtRest ∧ (∀ b ∈ List.replicate 79 0x41#8, printable b) ∧
      lastLine.col.toNat + (List.replicate 79 0x41#8).length < 80) :=
  ⟨⟨home_rest, by decide, by decide, by decide⟩, ⟨lastLine_rest, by decide, by decide⟩⟩

theorem witness_CommandsNeverTouchTheStream : Continues (exec (.setcursor 24 79) home) := ⟨_, rfl⟩

theorem witness_HostStreamRunsInOrder :
    ∀ i ∈ [Instr.init, .setcursor 2047 (-2048), .wrch 0x0A#8], i.wellFormed := by
  intro i hi
  simp only [List.mem_cons, List.not_mem_nil, or_false] at hi
  rcases hi with rfl | rfl | rfl <;> decide

theorem witness_AssemblerEmitsTheTableWords : inRange 0 255 255 ∧ inRange 0 15 15 ∧ inRange (-2048) 2047 (-2048) ∧
    inRange (-2048) 2047 2047 ∧ (AsmLine.setcursor (-5) 100).words = .ok [0x06FFB064#32] ∧
    (∀ b ∈ ([0, 255] : List Int), inRange 0 255 b) ∧
    ((∀ b ∈ ([1, 255] : List Int) ++ 0 :: [65, 0], inRange 0 255 b) ∧ (0 : Int) ∉ ([1, 255] : List Int)) ∧
    ((∀ b ∈ ([] : List Int), inRange 0 255 b) ∧ (0 : Int) ∉ ([] : List Int)) := by decide

theorem witness_AssemblerRefusesOutOfRange : (AsmLine.setcolorfb 15 0).rangesHold ∧ ¬(AsmLine.setcolorfb 16 0).rangesHold ∧
    ¬(AsmLine.setcursor 2048 0).rangesHold ∧ ¬(AsmLine.wrbytes [256]).rangesHold := by decide

theorem witness_ResetLeavesRegistersAndFreeGrid : 3999 < 4000 := by decide

theorem witness_CommandsRightAfterReset : 1 ≤ 1999 ∧ 1919 < 1920 ∧ (1920 ≤ 1999 ∧ 1999 < 2000) := by decide

theorem witness_DisplayMaySeeAHalfDoneScroll : lastLine.AtRest ∧ lastLine.row.toNat = 24 ∧ 23 ≤ 23 ∧
    Continues (exec (.wrch 0x0A#8) lastLine) :=
  ⟨lastLine_rest, by decide, by decide, ⟨_, lineFeed_of_last (s := lastLine.withCol 0#7) rfl lastLine_rest.2.2⟩⟩

theorem witness_WorkOfEveryCommand : lastCell.AtRest ∧ decode 0x00000000#32 = .error (.unassignedOpcode 0x00#8) :=
  ⟨lastCell_rest, by decide⟩

end Sys2Proof.Tests
end

section
/-! The opcode map (30_encoding.md R83): no word matches two rows, so a word that matches a command's row decodes to that
command's form; the operand fields of an encoded command; decode after encode. -/

namespace Sys2Proof

theorem OpRow.admits_iff (r : OpRow) (w : Word) : r.admits w = true ↔ w &&& r.mask = r.pattern := by
  simp [OpRow.admits]

/-- Two rows that one word matches agree on the bits that both masks test. -/
theorem OpRow.patterns_agree {r r' : OpRow} {w : Word} (h : r.admits w = true) (h' : r'.admits w = true) :
    r.pattern &&& r'.mask = r'.pattern &&& r.mask := by
  rw [← (OpRow.admits_iff r w).mp h, ← (OpRow.admits_iff r' w).mp h', BitVec.and_assoc, BitVec.and_assoc,
    BitVec.and_comm r.mask]

/-- Any two different rows of the map differ on a bit that both masks test. -/
theorem opRows_conflict : ∀ r ∈ opRows, ∀ r' ∈ opRows, r.pattern &&& r'.mask = r'.pattern &&& r.mask → r = r' := by decide

/-- A word matches at most one row of the map. -/
theorem opRow_unique {r r' : OpRow} (hr : r ∈ opRows) (hr' : r' ∈ opRows) {w : Word} (h : r.admits w = true)
    (h' : r'.admits w = true) : r = r' :=
  opRows_conflict r hr r' hr' (OpRow.patterns_agree h h')

theorem Instr.row_mem_opRows (i : Instr) : i.row ∈ opRows := by
  cases i <;> simp [Instr.row, opRows]

/-- Which row a word that matches the row of some command matches: that one alone. -/
theorem admits_eq_decide_row {w : Word} {i : Instr} (h : i.row.admits w = true) {r : OpRow} (hr : r ∈ opRows) :
    r.admits w = decide (r = i.row) := by
  by_cases e : r = i.row
  · simp [e, h]
  · simpa [e] using fun hw => e (opRow_unique hr i.row_mem_opRows hw h)

/-- An encoded command matches its own row of the map. -/
theorem row_admits_encode (i : Instr) : i.row.admits (encode i) = true := by
  rw [OpRow.admits_iff]
  cases i with
  | init => exact Laws.EncodesInRow.init
  | clear => exact Laws.EncodesInRow.clear
  | setcolor attr => exact Laws.EncodesInRow.setcolor attr
  | setcolorfb fg bg => exact Laws.EncodesInRow.setcolorfb fg bg
  | wrch ch => exact Laws.EncodesInRow.wrch ch
  | wrchc ch attr => exact Laws.EncodesInRow.wrchc ch attr
  | setcursor row col => exact Laws.EncodesInRow.setcursor row col

theorem admits_encode (i : Instr) {r : OpRow} (hr : r ∈ opRows) : r.admits (encode i) = decide (r = i.row) :=
  admits_eq_decide_row (row_admits_encode i) hr

/-! The operand fields of an encoded command (R85 to R89). -/

theorem attrFieldA_encode (attr : Byte) : attrFieldA (encode (.setcolor attr)) = attr := by
  ext k hk
  simp only [attrFieldA, encode, BitVec.getElem_extractLsb', BitVec.getLsbD_or, BitVec.getLsbD_setWidth]
  interval_cases k <;> simp

theorem fgField_encode (fg bg : ColorIndex) : fgField (encode (.setcolorfb fg bg)) = fg := by
  ext k hk
  simp only [fgField, encode, BitVec.getElem_extractLsb', BitVec.getLsbD_or, BitVec.getLsbD_setWidth,
    BitVec.getLsbD_shiftLeft]
  interval_cases k <;> simp

theorem bgField_encode (fg bg : ColorIndex) : bgField (encode (.setcolorfb fg bg)) = bg := by
  ext k hk
  simp only [bgField, encode, BitVec.getElem_extractLsb', BitVec.getLsbD_or, BitVec.getLsbD_setWidth,
    BitVec.getLsbD_shiftLeft]
  interval_cases k <;> simp

theorem chField_encode_wrch (ch : Byte) : chField (encode (.wrch ch)) = ch := by
  ext k hk
  simp only [chField, encode, BitVec.getElem_extractLsb', BitVec.getLsbD_or, BitVec.getLsbD_setWidth]
  interval_cases k <;> simp

theorem chField_encode_wrchc (ch attr : Byte) : chField (encode (.wrchc ch attr)) = ch := by
  ext k hk
  simp only [chField, encode, BitVec.getElem_extractLsb', BitVec.getLsbD_or, BitVec.getLsbD_setWidth,
    BitVec.getLsbD_shiftLeft]
  interval_cases k <;> simp

theorem attrFieldCC_encode (ch attr : Byte) : attrFieldCC (encode (.wrchc ch attr)) = attr := by
  ext k hk
  simp only [attrFieldCC, encode, BitVec.getElem_extractLsb', BitVec.getLsbD_or, BitVec.getLsbD_setWidth,
    BitVec.getLsbD_shiftLeft]
  interval_cases k <;> simp

theorem rowField_encode (row col : Int) : rowField (encode (.setcursor row col)) = BitVec.ofInt 12 row := by
  ext k hk
  simp only [rowField, encode, BitVec.getElem_extractLsb', BitVec.getLsbD_or, BitVec.getLsbD_setWidth,
    BitVec.getLsbD_shiftLeft]
  interval_cases k <;> simp

theorem colField_encode (row col : Int) : colField (encode (.setcursor row col)) = BitVec.ofInt 12 col := by
  ext k hk
  simp only [colField, encode, BitVec.getElem_extractLsb', BitVec.getLsbD_or, BitVec.getLsbD_setWidth,
    BitVec.getLsbD_shiftLeft]
  interval_cases k <;> simp

/-- `sext_12` of a coordinate's field is the coordinate, where 12 bits hold it (R89). -/
theorem toInt_ofInt_of_fits12 {v : Int} (h : fits12 v) : (BitVec.ofInt 12 v).toInt = v := by
  obtain ⟨hlo, hhi⟩ := h
  rw [BitVec.toInt_ofInt]
  exact Int.bmod_eq_of_le (by omega) (by omega)

/-- No bit of an encoding is dropped (R84 to R89, R94). -/
theorem decode_encode {i : Instr} (h : i.wellFormed) : decode (encode i) = .ok i := by
  have rows : ∀ r ∈ opRows, r.admits (encode i) = decide (r = i.row) := fun r hr => admits_encode i hr
  simp only [opRows, List.forall_mem_cons, List.not_mem_nil, false_imp_iff, implies_true, and_true] at rows
  obtain ⟨rInit, rClear, rSetcolor, rSetcolorfb, rWrch, rWrchc, rSetcursor⟩ := rows
  simp only [decode, rInit, rClear, rSetcolor, rSetcolorfb, rWrch, rWrchc, rSetcursor]
  cases i with
  | init => rfl
  | clear => rfl
  | setcolor attr => rw [attrFieldA_encode]; rfl
  | setcolorfb fg bg => rw [fgField_encode, bgField_encode]; rfl
  | wrch ch => rw [chField_encode_wrch]; rfl
  | wrchc ch attr => rw [chField_encode_wrchc, attrFieldCC_encode]; rfl
  | setcursor row col =>
    obtain ⟨hrow, hcol⟩ := h
    rw [rowField_encode, colField_encode, toInt_ofInt_of_fits12 hrow, toInt_ofInt_of_fits12 hcol]; rfl

/-- A register's bytes put together again are its word (20_memory.md R55). -/
theorem wordOf?_bytesOfWord (w : Word) : wordOf? (bytesOfWord w) = some w := by
  simp only [bytesOfWord, wordOf?, wordOfBytes, Option.some.injEq]
  ext k hk
  simp only [BitVec.getElem_append, BitVec.getElem_extractLsb']
  interval_cases k <;> simp

end Sys2Proof
end

section
/-! The step of a command word written to CMD (00_scope.md R14, 10_state.md R37). -/

namespace Sys2Proof.Machine

theorem runWord_of_decode_ok {w : Word} {i : Instr} (h : decode w = .ok i) (s : State) : runWord w s = exec i s := by
  simp [runWord, h]

theorem runWord_of_decode_error {w : Word} {r : Reserved} (h : decode w = .error r) (s : State) :
    runWord w s = .next s := by
  simp [runWord, h]

/-- A 32-bit write of CMD runs its word. -/
theorem hostEvent_write_cmd (w : Word) (s : State) : hostEvent (.write .regs 0 (bytesOfWord w)) s = runWord w s := by
  simp [hostEvent, hostWrite, wordOf?_bytesOfWord]

theorem step_of_cmd_write {s : State} {w : Word} {rest : List HostEvent}
    (h : s.host = .write .regs 0 (bytesOfWord w) :: rest) : step s = runWord w (s.withHost rest) := by
  rw [step_cons h, hostEvent_write_cmd]

/-- The step takes the presented word from the list again, so the word runs at the state itself. -/
theorem step_presentWord (w : Word) (s : State) : step (presentWord w s) = runWord w s :=
  step_of_cmd_write rfl

/-- Settles O8: the write's bytes are the word, the word decodes to the command. -/
theorem stepRunsTheDecodedCommand : Obligations.StepRunsTheDecodedCommand := by
  refine ⟨fun s w rest i hhost hdec => ?_, fun s w i hw hdec => ?_⟩
  · rw [step_of_cmd_write hhost, runWord_of_decode_ok hdec]
  · rw [State.withFetchWord, Nat.mod_eq_of_lt hw, step_presentWord, runWord_of_decode_ok hdec]

/-- Settles O9: with no event `serveHost` answers the state it was given. -/
theorem stepWithoutHostEventKeepsState : Obligations.StepWithoutHostEventKeepsState :=
  fun _ h => step_nil h

end Sys2Proof.Machine
end

section
/-! What a command reads (00_scope.md R14). The model's own bookkeeping is carried along: a command run over other books does
the same to `S = (row, col, color, G)` and adds the same entries to the books. -/

namespace Sys2Proof.Machine

/-- The state answered, changed by `g`; a fault or a refusal as it is. -/
def mapNext (g : State → State) : Result → Result
  | .next t => .next (g t)
  | .fault e => .fault e
  | .refused e => .refused e

@[simp] theorem mapNext_next (g : State → State) (t : State) : mapNext g (.next t) = .next (g t) := rfl
@[simp] theorem mapNext_fault (g : State → State) (e : Fault) : mapNext g (.fault e) = .fault e := rfl
@[simp] theorem mapNext_refused (g : State → State) (e : Refusal) : mapNext g (.refused e) = .refused e := rfl

/-- The state `s` with its bookkeeping continued from that of `b`: the host's side and the reset count of `b`, and what `s`
has logged and counted after what `b` has. -/
def State.onBooks (s b : State) : State where
  row      := s.row
  col      := s.col
  color    := s.color
  mem      := s.mem
  host     := b.host
  observed := b.observed
  log      := b.log ++ s.log
  scrolls  := b.scrolls + s.scrolls
  resets   := b.resets

/-- The spec's `S` alone: nothing logged, nothing counted, no host. -/
def State.bare (s : State) : State where
  row      := s.row
  col      := s.col
  color    := s.color
  mem      := s.mem
  host     := []
  observed := []
  log      := []
  scrolls  := 0
  resets   := 0

theorem bare_onBooks_self (s : State) : s.bare.onBooks s = s := by
  simp [State.bare, State.onBooks]

/-- The bare state is all that `SameS` compares. -/
theorem bare_eq_of_sameS {s s' : State} (h : SameS s s') : s'.bare = s.bare := by
  obtain ⟨hrow, hcol, hcolor, hmem⟩ := h
  simp [State.bare, hrow, hcol, hcolor, hmem]

section
variable (s b : State)

@[simp] theorem onBooks_row : (s.onBooks b).row = s.row := rfl
@[simp] theorem onBooks_col : (s.onBooks b).col = s.col := rfl
@[simp] theorem onBooks_color : (s.onBooks b).color = s.color := rfl
@[simp] theorem onBooks_mem : (s.onBooks b).mem = s.mem := rfl
@[simp] theorem onBooks_host : (s.onBooks b).host = b.host := rfl
@[simp] theorem onBooks_observed : (s.onBooks b).observed = b.observed := rfl
@[simp] theorem onBooks_resets : (s.onBooks b).resets = b.resets := rfl
@[simp] theorem onBooks_log : (s.onBooks b).log = b.log ++ s.log := rfl
@[simp] theorem onBooks_scrolls : (s.onBooks b).scrolls = b.scrolls + s.scrolls := rfl

@[simp] theorem onBooks_withRow (v : BitVec 5) : (s.onBooks b).withRow v = (s.withRow v).onBooks b := rfl
@[simp] theorem onBooks_withCol (v : BitVec 7) : (s.onBooks b).withCol v = (s.withCol v).onBooks b := rfl
@[simp] theorem onBooks_withColor (v : Byte) : (s.onBooks b).withColor v = (s.withColor v).onBooks b := rfl
@[simp] theorem onBooks_withMem (m : Memory) : (s.onBooks b).withMem m = (s.withMem m).onBooks b := rfl
@[simp] theorem onBooks_countScroll : (s.onBooks b).countScroll = s.countScroll.onBooks b := rfl
@[simp] theorem onBooks_logged (l : List CellAccess) : (s.onBooks b).logged l = (s.logged l).onBooks b := by
  simp [State.logged, State.onBooks]

end

/-- The operation does the same over any books. -/
def IgnoresBooks (f : State → Result) : Prop :=
  ∀ s b : State, f (s.onBooks b) = mapNext (·.onBooks b) (f s)

/-- Two operations that ignore the books, one after the other, ignore them. -/
theorem andThen_onBooks {f : State → Result} (hf : IgnoresBooks f) (r : Result) (b : State) :
    andThen (mapNext (·.onBooks b) r) f = mapNext (·.onBooks b) (andThen r f) := by
  cases r with
  | next s => exact hf s b
  | fault e => rfl
  | refused e => rfl

theorem ignoresBooks_gridWrite (i : Nat) (v : GridCell) : IgnoresBooks (gridWrite i v) := by
  intro s b
  simp only [gridWrite, onBooks_mem]
  cases s.mem.readCell i <;> simp

theorem ignoresBooks_storeCell (r : BitVec 5) (c : BitVec 7) (ch : Byte) : IgnoresBooks (storeCell r c ch) :=
  fun s b => ignoresBooks_gridWrite _ _ s b

theorem fillGrid_onBooks (v : GridCell) (s b : State) : fillGrid v (s.onBooks b) = (fillGrid v s).onBooks b := by
  simp [fillGrid]

theorem ignoresBooks_scroll : IgnoresBooks scroll := by
  intro s b
  by_cases h : s.mem.wf
  · rw [scroll_of_wf h, scroll_of_wf (s := s.onBooks b) h]
    simp [scrolled]
  · simp [scroll, h]

theorem ignoresBooks_lineFeed : IgnoresBooks lineFeed := by
  intro s b
  have hfull : ((s.withRow (s.row + 1#5)).onBooks b).rowFull = (s.withRow (s.row + 1#5)).rowFull := rfl
  simp only [lineFeed, onBooks_row, onBooks_withRow, hfull]
  split
  · rw [ignoresBooks_scroll]
    exact andThen_onBooks (fun _ _ => rfl) _ b
  · rfl

theorem ignoresBooks_advancePrintable (ch : Byte) : IgnoresBooks (advancePrintable ch) := by
  intro s b
  simp only [advancePrintable, onBooks_row, onBooks_col, ignoresBooks_storeCell _ _ _ s b]
  refine andThen_onBooks (fun u b => ?_) _ b
  have hfull : ((u.withCol (u.col + 1#7)).onBooks b).colFull = (u.withCol (u.col + 1#7)).colFull := rfl
  simp only [onBooks_col, onBooks_withCol, hfull]
  split
  · exact ignoresBooks_lineFeed _ b
  · rfl

theorem ignoresBooks_advance (ch : Byte) : IgnoresBooks (advance ch) := by
  intro s b
  unfold advance
  cases classify ch with
  | newline => exact ignoresBooks_lineFeed (s.withCol 0#7) b
  | carriageReturn => rfl
  | printable => exact ignoresBooks_advancePrintable ch s b

/-- R14: what a command does, it does over any books. -/
theorem ignoresBooks_exec (i : Instr) : IgnoresBooks (exec i) := by
  intro s b
  cases i with
  | init => simp [exec, execInit, fillGrid_onBooks]
  | clear => simp [exec, execClear, fillGrid_onBooks]
  | setcolor attr => rfl
  | setcolorfb fg bg => rfl
  | wrch ch => exact ignoresBooks_advance ch s b
  | wrchc ch attr => exact ignoresBooks_advance ch (s.withColor attr) b
  | setcursor row col => rfl

/-- A command at a state is the command at its bare `S`, entered in the state's books. -/
theorem exec_eq_mapNext_bare (i : Instr) (s : State) : exec i s = mapNext (·.onBooks s) (exec i s.bare) := by
  conv_lhs => rw [← bare_onBooks_self s]
  exact ignoresBooks_exec i s.bare s

/-- A change of the books alone can be made before a command or after it. -/
theorem exec_comm_of_books {g : State → State} (hg : ∀ c b : State, g (c.onBooks b) = c.onBooks (g b)) (i : Instr)
    (s : State) : exec i (g s) = mapNext g (exec i s) := by
  have hs : g s = s.bare.onBooks (g s) := by rw [← hg, bare_onBooks_self]
  rw [hs, ignoresBooks_exec, exec_eq_mapNext_bare i s]
  cases exec i s.bare with
  | next u => simp [hg]
  | fault e => rfl
  | refused e => rfl

end Sys2Proof.Machine
end

section
/-! No command is refused: every arm of the dispatch has its meaning. -/

namespace Sys2Proof.Machine

theorem andThen_ne_refused {r : Result} {f : State → Result} {e : Refusal} (hr : r ≠ .refused e)
    (hf : ∀ s, f s ≠ .refused e) : andThen r f ≠ .refused e := by
  cases r with
  | next s => exact hf s
  | fault e' => simp
  | refused e' => simpa using hr

theorem gridWrite_ne_refused (i : Nat) (v : GridCell) (s : State) (e : Refusal) : gridWrite i v s ≠ .refused e := by
  unfold gridWrite; split <;> simp

theorem scroll_ne_refused (s : State) (e : Refusal) : scroll s ≠ .refused e := by
  unfold scroll; split <;> simp

theorem lineFeed_ne_refused (s : State) (e : Refusal) : lineFeed s ≠ .refused e := by
  simp only [lineFeed]
  split
  · exact andThen_ne_refused (scroll_ne_refused _ e) (by simp)
  · simp

theorem advancePrintable_ne_refused (ch : Byte) (s : State) (e : Refusal) : advancePrintable ch s ≠ .refused e := by
  refine andThen_ne_refused (gridWrite_ne_refused _ _ s e) fun u => ?_
  dsimp only
  split
  · exact lineFeed_ne_refused _ e
  · simp

theorem advance_ne_refused (ch : Byte) (s : State) (e : Refusal) : advance ch s ≠ .refused e := by
  unfold advance
  cases classify ch with
  | newline => exact lineFeed_ne_refused _ e
  | carriageReturn => simp [advanceReturn]
  | printable => exact advancePrintable_ne_refused ch s e

theorem exec_ne_refused (i : Instr) (s : State) (e : Refusal) : exec i s ≠ .refused e := by
  cases i with
  | init => simp [exec, execInit]
  | clear => simp [exec, execClear]
  | setcolor attr => simp [exec, execSetcolor]
  | setcolorfb fg bg => simp [exec, execSetcolorfb]
  | wrch ch => exact advance_ne_refused ch s e
  | wrchc ch attr => exact advance_ne_refused ch _ e
  | setcursor row col => simp [exec, execSetcursor]

/-- Settles O10: both states run the command at the same bare `S` (`exec_eq_mapNext_bare`), each over its own books. -/
theorem outcomeDependsOnlyOnCommandAndS : Obligations.OutcomeDependsOnlyOnCommandAndS := by
  intro i s s' hsame
  have hne := exec_ne_refused i s.bare
  rw [exec_eq_mapNext_bare i s', bare_eq_of_sameS hsame, exec_eq_mapNext_bare i s]
  cases hb : exec i s.bare with
  | next u =>
    refine ⟨?_, by simp, by simp⟩
    rintro _ ⟨⟩
    refine ⟨u.onBooks s', u.log, rfl, ⟨rfl, rfl, rfl, rfl⟩, rfl, rfl, ?_⟩
    simp only [onBooks_scrolls]
    omega
  | fault e => exact ⟨by simp, fun _ h => h, by simp⟩
  | refused e => exact absurd hb (hne e)

end Sys2Proof.Machine
end

section
/-! A command list written to CMD (10_state.md R25, 60_exceptions.md R181). -/

namespace Sys2Proof.Machine

/-- The first of the listed commands is the next word; the others stay presented. -/
theorem step_presentAll_cons {i : Instr} (h : i.wellFormed) (is : List Instr) (s : State) :
    step (presentAll (i :: is) s) = exec i (presentAll is s) :=
  calc step (presentAll (i :: is) s)
    _ = runWord (encode i) (presentAll is s) := step_of_cmd_write rfl
    _ = exec i (presentAll is s) := runWord_of_decode_ok (decode_encode h) _

/-- Presenting a list changes the books alone, so a command may run before it. -/
theorem exec_presentAll (i : Instr) (is : List Instr) (s : State) :
    exec i (presentAll is s) = mapNext (presentAll is) (exec i s) :=
  exec_comm_of_books (fun _ _ => rfl) i s

theorem andThen_mapNext (g : State → State) (r : Result) (f : State → Result) :
    andThen (mapNext g r) f = andThen r fun s => f (g s) := by
  cases r <;> rfl

/-- Settles O53, by induction on the list: a step runs the first command, which leaves the others presented. -/
theorem hostStreamRunsInOrder : Obligations.HostStreamRunsInOrder := by
  intro is
  induction is with
  | nil => exact fun s _ => rfl
  | cons i is ih =>
    intro s hwf
    obtain ⟨hi, his⟩ := List.forall_mem_cons.mp hwf
    calc serveMany (i :: is).length (presentAll (i :: is) s)
      _ = andThen (exec i (presentAll is s)) (serveMany is.length) :=
          congrArg (andThen · (serveMany is.length)) (step_presentAll_cons hi is s)
      _ = andThen (exec i s) fun t => serveMany is.length (presentAll is t) := by
          rw [exec_presentAll, andThen_mapNext]
      _ = execAll (i :: is) s := congrArg (andThen (exec i s)) (funext fun t => ih t his)

end Sys2Proof.Machine
end

section
/-! From rest every command completes, at rest again (00_scope.md R15, 10_state.md R31, 60_exceptions.md R170). -/

namespace Sys2Proof.Machine

/-- The operation answers a next state, which is at rest. -/
def CompletesAtRest (r : Result) : Prop := ∃ t, r = .next t ∧ t.AtRest

theorem completesAtRest_next {t : State} (h : t.AtRest) : CompletesAtRest (.next t) := ⟨t, rfl, h⟩

theorem CompletesAtRest.ne_fault {r : Result} (h : CompletesAtRest r) (e : Fault) : r ≠ .fault e := by
  obtain ⟨t, rfl, -⟩ := h
  simp

theorem State.AtRest.withCol_zero {s : State} (h : s.AtRest) : (s.withCol 0#7).AtRest :=
  let ⟨hrow, _, hmem⟩ := h
  ⟨hrow, by simp, hmem⟩

theorem State.AtRest.stored {s : State} (h : s.AtRest) (ch : Byte) : (stored ch s).AtRest :=
  let ⟨hrow, hcol, hmem⟩ := h
  ⟨hrow, hcol, hmem.setCell _ _⟩

theorem atRest_fillGrid {s : State} (v : GridCell) (hrow : s.row.toNat < Config.rows)
    (hcol : s.col.toNat < Config.columns) : (fillGrid v s).AtRest :=
  ⟨hrow, hcol, fillGrid_wf v s⟩

/-- CLAMP's result as an integer (R129). -/
theorem clamp_mem {lo hi : Int} (h : lo ≤ hi) (v : Int) : lo ≤ clamp v lo hi ∧ clamp v lo hi ≤ hi := by
  unfold clamp
  split
  · omega
  · split <;> omega

theorem clampRow_lt (r : Int) : (clampRow r).toNat < Config.rows := by
  have h := clamp_mem (lo := 0) (hi := Config.rows - 1) (by decide) r
  simp only [clampRow, BitVec.toNat_ofInt, Config.rows] at h ⊢
  omega

theorem clampCol_lt (c : Int) : (clampCol c).toNat < Config.columns := by
  have h := clamp_mem (lo := 0) (hi := Config.columns - 1) (by decide) c
  simp only [clampCol, BitVec.toNat_ofInt, Config.columns] at h ⊢
  omega

theorem lineFeed_completes {s : State} (h : s.AtRest) : CompletesAtRest (lineFeed s) := by
  obtain ⟨(hrow : s.row.toNat < 25), hcol, hmem⟩ := h
  by_cases hlast : s.row.toNat = 24
  · rw [lineFeed_of_last hlast hmem]
    exact completesAtRest_next ⟨by simp, hcol, wf_scrolledMem hmem _⟩
  · rw [lineFeed_of_lt (by omega)]
    refine completesAtRest_next ⟨?_, hcol, hmem⟩
    rw [State.withRow_row, toNat_row_succ hrow]
    exact (by omega : s.row.toNat + 1 < 25)

theorem advancePrintable_completes (ch : Byte) {s : State} (h : s.AtRest) :
    CompletesAtRest (advancePrintable ch s) := by
  have hstored : (stored ch s).AtRest := h.stored ch
  obtain ⟨hrow, (hcol : s.col.toNat < 80), hmem⟩ := h
  rw [advancePrintable_of_rest ch hrow hcol hmem]
  split
  · exact lineFeed_completes hstored.withCol_zero
  · refine completesAtRest_next ⟨hrow, ?_, hmem.setCell _ _⟩
    rw [State.withCol_col, toNat_col_succ hcol]
    exact (by omega : s.col.toNat + 1 < 80)

theorem advance_completes (ch : Byte) {s : State} (h : s.AtRest) : CompletesAtRest (advance ch s) := by
  unfold advance
  cases classify ch with
  | newline => exact lineFeed_completes h.withCol_zero
  | carriageReturn => exact completesAtRest_next h.withCol_zero
  | printable => exact advancePrintable_completes ch h

theorem exec_completes (i : Instr) {s : State} (h : s.AtRest) : CompletesAtRest (exec i s) := by
  cases i with
  | init => exact completesAtRest_next (atRest_fillGrid _ (by simp) (by simp))
  | clear => exact completesAtRest_next ⟨by simp, by simp, fillGrid_wf _ s⟩
  | setcolor attr => exact completesAtRest_next h
  | setcolorfb fg bg => exact completesAtRest_next h
  | wrch ch => exact advance_completes ch h
  | wrchc ch attr => exact advance_completes ch (s := s.withColor attr) h
  | setcursor row col =>
    obtain ⟨-, -, hmem⟩ := h
    exact completesAtRest_next ⟨clampRow_lt row, clampCol_lt col, hmem⟩

theorem runWord_completes (w : Word) {s : State} (h : s.AtRest) : CompletesAtRest (runWord w s) := by
  cases hdec : decode w with
  | ok i => rw [runWord_of_decode_ok hdec]; exact exec_completes i h
  | error r => rw [runWord_of_decode_error hdec]; exact completesAtRest_next h

/-- Settles O11: the cursor stays on the grid and the grid whole through every micro-operation. -/
theorem everyCommandCompletesFromRest : Obligations.EveryCommandCompletesFromRest :=
  fun _ h => ⟨fun i => exec_completes i h, fun w => runWord_completes w h⟩

/-! The host's accesses. -/

theorem hostRead_ne_fault (region : Region) (offset bytes : Nat) (s : State) (e : Fault) :
    hostRead region offset bytes s ≠ .fault e := by
  unfold hostRead
  cases region <;> dsimp only <;> split <;> simp

theorem hostWrite_ne_fault (region : Region) (offset : Nat) (data : List Byte) {s : State} (h : s.AtRest) (e : Fault) :
    hostWrite region offset data s ≠ .fault e := by
  cases region with
  | grid => simp [hostWrite]
  | regs =>
    cases hw : wordOf? data with
    | none => simp [hostWrite, hw]
    | some w =>
      simp only [hostWrite, hw]
      split
      · exact (runWord_completes w h).ne_fault e
      · split <;> simp

theorem hostEvent_ne_fault (ev : HostEvent) {s : State} (h : s.AtRest) (e : Fault) : hostEvent ev s ≠ .fault e := by
  cases ev with
  | read region offset bytes => exact hostRead_ne_fault region offset bytes s e
  | write region offset data => exact hostWrite_ne_fault region offset data h e
  | reset => simp [hostEvent_reset]

/-- Settles O12: a step is one event, and of the events only a word written to CMD runs a command. -/
theorem stepFromRestNeverFaults : Obligations.StepFromRestNeverFaults := by
  intro s e hrest
  cases hhost : s.host with
  | nil => simp [step_nil hhost]
  | cons ev rest =>
    rw [step_cons hhost]
    exact hostEvent_ne_fault ev (s := s.withHost rest) hrest e

end Sys2Proof.Machine
end

section
/-! A register's bytes and its word are one and the same value (20_memory.md R55, 30_encoding.md R80). -/

namespace Sys2Proof

/-- A byte string is a word exactly when it is four bytes long. -/
theorem wordOf?_isSome_iff (data : List Byte) : (wordOf? data).isSome = true ↔ data.length = 4 := by
  constructor
  · unfold wordOf?
    split <;> simp
  · intro hlen
    obtain ⟨b0, b1, b2, b3, rfl⟩ := List.length_eq_four.mp hlen
    rfl

theorem bytesOfWord_wordOfBytes (b0 b1 b2 b3 : Byte) : bytesOfWord (wordOfBytes b0 b1 b2 b3) = [b0, b1, b2, b3] := by
  simp only [bytesOfWord, wordOfBytes, List.cons.injEq, and_true]
  refine ⟨?_, ?_, ?_, ?_⟩ <;> ext k hk <;> simp <;> grind

/-- The only bytes that are the word `w` are those of `w`. -/
theorem eq_bytesOfWord_of_wordOf? {data : List Byte} {w : Word} (h : wordOf? data = some w) : data = bytesOfWord w := by
  have hlen : data.length = 4 := (wordOf?_isSome_iff data).mp (by simp [h])
  obtain ⟨b0, b1, b2, b3, rfl⟩ := List.length_eq_four.mp hlen
  cases h
  exact (bytesOfWord_wordOfBytes b0 b1 b2 b3).symm

end Sys2Proof
end

section
/-! What the host's accesses answer, and what a next state of a step can be (10_state.md R36 to R40). -/

namespace Sys2Proof.Machine

/-- A read answers a next state only by showing the host a value. -/
theorem hostRead_eq_next {g : Region} {o n : Nat} {s t : State} (h : hostRead g o n s = .next t) :
    ∃ d, t = s.observe d := by
  unfold hostRead at h
  split at h
  · cases h
    exact ⟨_, rfl⟩
  · cases h

theorem hostWrite_cmd (w : Word) (s : State) : hostWrite .regs 0 (bytesOfWord w) s = runWord w s :=
  hostEvent_write_cmd w s

/-- A write of CURSOR or of COLOR is ignored (R38, R39). -/
theorem hostWrite_view {o : Nat} (ho : o = 4 ∨ o = 8) (w : Word) (s : State) :
    hostWrite .regs o (bytesOfWord w) s = .next s := by
  have hcmd : o ≠ 0 := by omega
  simp [hostWrite, wordOf?_bytesOfWord, hcmd, ho]

/-- A word answers a next state as the command it decodes to, or as nothing. -/
theorem runWord_eq_next {w : Word} {s t : State} (h : runWord w s = .next t) :
    (∃ i, decode w = .ok i ∧ exec i s = .next t) ∨ t = s := by
  cases hdec : decode w with
  | ok i =>
    rw [runWord_of_decode_ok hdec] at h
    exact .inl ⟨i, rfl, h⟩
  | error r =>
    rw [runWord_of_decode_error hdec] at h
    cases h
    exact .inr rfl

/-- A write answers a next state only as a command written to CMD, or by changing nothing. -/
theorem hostWrite_eq_next {g : Region} {o : Nat} {data : List Byte} {s t : State} (h : hostWrite g o data s = .next t) :
    (∃ w i, g = .regs ∧ o = 0 ∧ data = bytesOfWord w ∧ decode w = .ok i ∧ exec i s = .next t) ∨ t = s := by
  cases g with
  | grid => cases h
  | regs =>
    cases hw : wordOf? data with
    | none => simp [hostWrite, hw] at h
    | some w =>
      simp only [hostWrite, hw] at h
      split_ifs at h with hcmd hview
      · rcases runWord_eq_next h with ⟨i, hdec, hexec⟩ | hkept
        · exact .inl ⟨w, i, rfl, hcmd, eq_bytesOfWord_of_wordOf? hw, hdec, hexec⟩
        · exact .inr hkept
      · cases h
        exact .inr rfl

/-- The step touched the host's side alone: an event taken, a value seen. -/
abbrev OnlyHostSide (s t : State) : Prop := SameS s t ∧ NoAccess s t ∧ t.resets = s.resets

/-- What a step that answers a next state has done: a hardware reset, a command written to CMD, or, for every other event
that is answered and for none at all, nothing but to the host's side. -/
theorem step_eq_next {s t : State} (h : step s = .next t) :
    (∃ rest, s.host = .reset :: rest ∧ t = hardReset (s.withHost rest)) ∨
    (∃ rest w i, s.host = .write .regs 0 (bytesOfWord w) :: rest ∧ decode w = .ok i ∧
      exec i (s.withHost rest) = .next t) ∨
    OnlyHostSide s t := by
  cases hhost : s.host with
  | nil =>
    rw [step_nil hhost] at h
    cases h
    exact .inr (.inr ⟨⟨rfl, rfl, rfl, rfl⟩, ⟨rfl, rfl⟩, rfl⟩)
  | cons e rest =>
    rw [step_cons hhost] at h
    cases e with
    | read g o n =>
      obtain ⟨d, rfl⟩ := hostRead_eq_next h
      exact .inr (.inr ⟨⟨rfl, rfl, rfl, rfl⟩, ⟨rfl, rfl⟩, rfl⟩)
    | write g o data =>
      rcases hostWrite_eq_next h with ⟨w, i, rfl, rfl, rfl, hdec, hexec⟩ | rfl
      · exact .inr (.inl ⟨rest, w, i, rfl, hdec, hexec⟩)
      · exact .inr (.inr ⟨⟨rfl, rfl, rfl, rfl⟩, ⟨rfl, rfl⟩, rfl⟩)
    | reset =>
      cases h
      exact .inl ⟨rest, rfl, rfl⟩

/-- Only a step that serves a command or a hardware reset changes the spec's `S`. -/
theorem sameS_or_nextIsCommandOrReset {s t : State} (h : step s = .next t) : SameS s t ∨ s.NextIsCommandOrReset := by
  rcases step_eq_next h with ⟨rest, hhost, -⟩ | ⟨rest, w, i, hhost, hdec, -⟩ | ⟨hsame, -⟩
  · exact .inr ⟨rest, .inl hhost⟩
  · exact .inr ⟨rest, .inr ⟨w, i, hhost, hdec⟩⟩
  · exact .inl hsame

end Sys2Proof.Machine
end

section
/-! The invariants along every step and at reset (10_state.md R31, R41), and the host's side along every command (R25). -/

namespace Sys2Proof.Machine

/-- Being at rest speaks of the spec's `S` alone. -/
theorem State.AtRest.of_sameS {s t : State} (hrest : s.AtRest) (h : SameS s t) : t.AtRest := by
  obtain ⟨hrow, hcol, -, hmem⟩ := h
  simpa only [State.AtRest, hrow, hcol, hmem] using hrest

theorem atRest_hardReset (s : State) : (hardReset s).AtRest :=
  ⟨by simp, by simp, by simpa only [hardReset_mem] using wf_resetMemory _⟩

theorem atRest_of_exec {i : Instr} {s t : State} (hrest : s.AtRest) (h : exec i s = .next t) : t.AtRest := by
  obtain ⟨u, hu, hurest⟩ := exec_completes i hrest
  cases hu.symm.trans h
  exact hurest

/-- Settles O13: a reset ends at rest, a command from rest does (`exec_completes`), and every other step leaves `S` as it
was. -/
theorem stepKeepsRest : Obligations.StepKeepsRest := by
  intro s t hrest h
  rcases step_eq_next h with ⟨rest, -, rfl⟩ | ⟨rest, w, i, -, -, hexec⟩ | ⟨hsame, -⟩
  · exact atRest_hardReset _
  · exact atRest_of_exec (s := s.withHost rest) hrest hexec
  · exact hrest.of_sameS hsame

/-- Settles O14: the reset grid lists every byte, and an empty trace replays to it. -/
theorem invariantsHoldAtReset : Obligations.InvariantsHoldAtReset :=
  ⟨⟨by simp, by simp, by simpa only [State.reset_mem] using wf_resetMemory 0⟩,
    by simp only [State.reset_mem, State.reset_log, State.reset_resets, storesOf, replay],
    by simp only [State.reset_log, readsAgree]⟩

/-- Settles O52: a command at `s` is the command at the bare `S`, entered in the books of `s`, whose host side and reset
count stay (`exec_eq_mapNext_bare`). -/
theorem commandsNeverTouchTheStream : Obligations.CommandsNeverTouchTheStream := by
  intro i s t h
  rw [exec_eq_mapNext_bare] at h
  cases hbare : exec i s.bare with
  | next u =>
    rw [hbare] at h
    cases h
    exact ⟨rfl, rfl, rfl⟩
  | fault e => simp [hbare] at h
  | refused e => simp [hbare] at h

end Sys2Proof.Machine
end

section
/-! The register block: which accesses are served (R40), and what CMD, CURSOR and COLOR show (R37 to R39). -/

namespace Sys2Proof.Machine

/-- A register access inside the interface: four bytes at CMD, CURSOR or COLOR (R40). -/
abbrev IsRegisterAccess (offset bytes : Nat) : Prop := bytes = 4 ∧ (offset = 0 ∨ offset = 4 ∨ offset = 8)

theorem readReg_isSome_iff (o n : Nat) (s : State) : (readReg o n s).isSome = true ↔ IsRegisterAccess o n := by
  unfold readReg
  split_ifs <;> simp [IsRegisterAccess, *]

theorem hostRead_regs_of_some {o n : Nat} {s : State} {d : ReadData} (h : readReg o n s = some d) :
    hostRead .regs o n s = .next (s.observe d) := by
  simp [hostRead, h]

theorem hostRead_regs_of_none {o n : Nat} {s : State} (h : readReg o n s = none) :
    hostRead .regs o n s = .refused (.accessShape .regs o n) := by
  simp [hostRead, h]

theorem hostWrite_regs_of_not_access {o : Nat} {data : List Byte} (h : ¬IsRegisterAccess o data.length) (s : State) :
    hostWrite .regs o data s = .refused (.accessShape .regs o data.length) := by
  cases hw : wordOf? data with
  | none => simp [hostWrite, hw]
  | some w =>
    have hlen : data.length = 4 := (wordOf?_isSome_iff data).mp (by simp [hw])
    have ho : ¬(o = 0 ∨ o = 4 ∨ o = 8) := fun ho => h ⟨hlen, ho⟩
    obtain ⟨hcmd, hview⟩ := not_or.mp ho
    simp only [hostWrite, hw, if_neg hcmd, if_neg hview]

/-- Settles O17: the four bytes are the word, which runs; CMD reads 0. -/
theorem cmdWriteExecutesAndReadsZero : Obligations.CmdWriteExecutesAndReadsZero := by
  refine fun s => ⟨fun w i hdec => ?_, fun w r hdec => ?_, hostRead_regs_of_some rfl⟩
  · rw [hostWrite_cmd, runWord_of_decode_ok hdec]
  · rw [hostWrite_cmd, runWord_of_decode_error hdec]

/-- Settles O20: a read of the block is served exactly for the shapes of `readReg_isSome_iff`, a write for no other; the
grid is not the host's to write. -/
theorem otherHostAccessesAreRefused : Obligations.OtherHostAccessesAreRefused := by
  refine ⟨fun s o n h => ?_, fun s o h => ?_, fun s o data h => hostWrite_regs_of_not_access h s, fun _ _ _ => rfl⟩
  · exact hostRead_regs_of_none (by simpa [h] using readReg_isSome_iff o n s)
  · obtain ⟨d, hd⟩ := Option.isSome_iff_exists.mp ((readReg_isSome_iff o 4 s).mpr ⟨rfl, h⟩)
    exact ⟨d, hostRead_regs_of_some hd⟩

/-! CURSOR's fields (R38). -/

theorem cursorReg_row (s : State) : (cursorReg s).extractLsb' 8 5 = s.row := by
  ext k hk
  simp [cursorReg]
  grind

theorem cursorReg_col (s : State) : (cursorReg s).extractLsb' 0 7 = s.col := by
  ext k hk
  simp [cursorReg]
  grind

theorem cursorReg_bit7 (s : State) : (cursorReg s).extractLsb' 7 1 = 0#1 := by
  ext k hk
  simp [cursorReg]
  omega

theorem cursorReg_high (s : State) : (cursorReg s).extractLsb' 13 19 = 0#19 := by
  ext k hk
  simp [cursorReg]
  grind

/-- Settles O18: the fields are the registers, and a step that keeps `S` keeps the cursor. -/
theorem cursorRegisterViewsTheCursor : Obligations.CursorRegisterViewsTheCursor := by
  refine ⟨fun s => ⟨cursorReg s, hostRead_regs_of_some rfl, cursorReg_high s, cursorReg_row s, cursorReg_bit7 s,
    cursorReg_col s, fun hrest => ?_⟩, fun s w => hostWrite_view (.inl rfl) w s, fun s t h hmoved => ?_, by decide⟩
  · obtain ⟨hrow, hcol, -⟩ := hrest
    rw [cursorReg_row, cursorReg_col]
    exact ⟨Nat.le_of_lt_succ hrow, Nat.le_of_lt_succ hcol⟩
  · refine (sameS_or_nextIsCommandOrReset h).resolve_left ?_
    rintro ⟨hrow, hcol, -⟩
    exact hmoved.elim (· hrow) (· hcol)

/-! COLOR's fields (R39). -/

theorem colorReg_bg (s : State) : (colorReg s).extractLsb' 4 4 = bgOf s.color := by
  ext k hk
  simp [colorReg, bgOf]
  omega

theorem colorReg_fg (s : State) : (colorReg s).extractLsb' 0 4 = fgOf s.color := by
  ext k hk
  simp [colorReg, fgOf]
  omega

theorem colorReg_high (s : State) : (colorReg s).extractLsb' 8 24 = 0#24 := by
  ext k hk
  simp [colorReg]

/-- Settles O19: the fields are those of the colour, and a step that keeps `S` keeps the colour. -/
theorem colorRegisterViewsTheColour : Obligations.ColorRegisterViewsTheColour := by
  refine ⟨fun s => ⟨colorReg s, hostRead_regs_of_some rfl, colorReg_high s, colorReg_bg s, colorReg_fg s⟩,
    fun s w => hostWrite_view (.inr rfl) w s, fun s t h hchanged => ?_, by decide⟩
  refine (sameS_or_nextIsCommandOrReset h).resolve_left ?_
  rintro ⟨-, -, hcolor, -⟩
  exact hchanged hcolor

end Sys2Proof.Machine
end

section
/-! The host's physical addresses (20_memory.md R50, R56; 10_state.md R37). -/

namespace Sys2Proof

open Machine

/-- No overlap of the regions (00_scope.md R7): an address of the register block is none of the grid's. -/
theorem Layout.locate_regs {L : Layout} (hL : L.Valid) {k : Nat} (hk : k < 12) :
    L.locate (L.regBase + k) = some (.regs, k) := by
  obtain ⟨-, -, -, -, hdisjoint⟩ := hL
  simp only [Config.gridBytes, Config.regBytes] at hdisjoint
  have hgrid : ¬(L.gridBase ≤ L.regBase + k ∧ L.regBase + k < L.gridBase + 4000) := by omega
  simp [Layout.locate, hgrid, hk]

section
variable {L : Layout} {a o : Nat} {g : Region} (hloc : L.locate a = some (g, o))
include hloc

theorem Layout.serve_write_aligned {data : List Byte} (halign : a % data.length = 0) (s : State) :
    L.serve (.write a data) s = hostEvent (.write g o data) s := by
  simp [Layout.serve, Layout.event, hloc, halign]

theorem Layout.serve_write_misaligned {data : List Byte} (halign : a % data.length ≠ 0) (s : State) :
    L.serve (.write a data) s = .refused (.accessShape g o data.length) := by
  simp [Layout.serve, Layout.event, hloc, halign]

theorem Layout.serve_read_misaligned {n : Nat} (halign : a % n ≠ 0) (s : State) :
    L.serve (.read a n) s = .refused (.accessShape g o n) := by
  simp [Layout.serve, Layout.event, hloc, halign]

end

/-- Settles O23: REG_BASE is aligned and is CMD's address; what is not aligned never becomes an event. -/
theorem busAccessesAreAligned : Obligations.BusAccessesAreAligned := by
  intro L s hL
  have hcmd : L.locate L.regBase = some (.regs, 0) := Layout.locate_regs hL (k := 0) (by decide)
  refine ⟨fun w => ?_, fun a n g o hloc hn => Layout.serve_read_misaligned hloc hn s,
    fun a data g o hloc hn => Layout.serve_write_misaligned hloc hn s⟩
  obtain ⟨-, (halign : L.regBase % (bytesOfWord w).length = 0), -⟩ := hL
  rw [Layout.serve_write_aligned hcmd halign, hostEvent_write_cmd]

end Sys2Proof
end

section
/-! Traces (00_scope.md R16; 20_memory.md R62, R63): accesses that lead from one grid to another, and that every command's
accesses do so. The reset grid and the whole log are the special case `State.LogFaithful`. -/

namespace Sys2Proof.Machine

/-- The stores of `l`, replayed over the grid `m`, give `m'`, and every read of `l` was answered by the grid of its
moment. -/
def ReplaysTo (m : Memory) (l : List CellAccess) (m' : Memory) : Prop := replay m (storesOf l) = m' ∧ readsAgree m l

theorem ReplaysTo.nil (m : Memory) : ReplaysTo m [] m := ⟨rfl, trivial⟩

theorem ReplaysTo.write (m : Memory) (i : Nat) (v : GridCell) : ReplaysTo m [.write i v] (m.setCell i v) := ⟨rfl, trivial⟩

theorem ReplaysTo.append {m m' m'' : Memory} {l l' : List CellAccess} (h : ReplaysTo m l m') (h' : ReplaysTo m' l' m'') :
    ReplaysTo m (l ++ l') m'' := by
  obtain ⟨rfl, hreads⟩ := h
  obtain ⟨rfl, hreads'⟩ := h'
  exact ⟨by rw [storesOf_append, replay_append], (readsAgree_append m l l').mpr ⟨hreads, hreads'⟩⟩

theorem ReplaysTo.wf {m m' : Memory} {l : List CellAccess} (h : ReplaysTo m l m') (hm : m.wf) : m'.wf := by
  obtain ⟨rfl, -⟩ := h
  exact hm.replay _

/-- Stores to consecutive cells: the cells `i`, `i + 1`, … hold the values stored, every other cell what it held. -/
theorem readCell_replay_zip (vs : List GridCell) {m : Memory} (h : m.wf) (i : Nat) {j : Nat} (hj : j < 2000) :
    (replay m ((List.range' i vs.length).zip vs)).readCell j =
      if i ≤ j ∧ j < i + vs.length then vs[j - i]? else m.readCell j := by
  induction vs generalizing m i with
  | nil => simp [replay]
  | cons v vs ih =>
    simp only [List.length_cons, List.range'_succ, List.zip_cons_cons, replay, ih (h.setCell i v)]
    obtain ⟨w, hw⟩ := h.readCell_eq_some hj
    rcases Nat.lt_trichotomy j i with hlt | rfl | hgt
    · rw [if_neg (by omega), if_neg (by omega), Memory.readCell_setCell, if_neg (by omega)]
    · rw [if_neg (by omega), if_pos (by omega), Memory.readCell_setCell, if_pos rfl, hw]
      simp
    · have hsub : j - i = j - (i + 1) + 1 := by omega
      have hiff : (i + 1 ≤ j ∧ j < i + 1 + vs.length) ↔ (i ≤ j ∧ j < i + (vs.length + 1)) := by omega
      rw [Memory.readCell_setCell, if_neg hgt.ne', hsub, List.getElem?_cons_succ]
      exact if_congr hiff rfl rfl

/-- Storing every cell once, ascending, leaves nothing of the old grid. -/
theorem replay_allCells {m : Memory} (h : m.wf) {cs : List GridCell} (hlen : cs.length = 2000) :
    replay m ((List.range' 0 2000).zip cs) = Memory.ofCells cs := by
  refine (h.replay _).ext (Memory.wf_ofCells hlen) fun j hj => ?_
  rw [← hlen, readCell_replay_zip cs h 0 hj, if_pos (by omega), Memory.readCell_ofCells, Nat.sub_zero]

/-! FILL_GRID and SCROLL (R126, R128): each stores every cell once, ascending. -/

theorem storesOf_fillLog_eq_zip (v : GridCell) (i n : Nat) :
    storesOf (fillLog v i n) = (List.range' i n).zip (List.replicate n v) := by
  rw [storesOf_fillLog]
  apply List.ext_getElem <;> simp

/-- A fill reads nothing. -/
theorem readsAgree_fillLog (m : Memory) (v : GridCell) (i n : Nat) : readsAgree m (fillLog v i n) := by
  induction n generalizing m i with
  | zero => trivial
  | succ n ih => exact ih _ _

theorem replaysTo_fillLog (v : GridCell) {m : Memory} (h : m.wf) :
    ReplaysTo m (fillLog v 0 2000) (Memory.ofCells (List.replicate 2000 v)) := by
  have hstores : replay m (storesOf (fillLog v 0 2000)) = Memory.ofCells (List.replicate 2000 v) := by
    rw [storesOf_fillLog_eq_zip, replay_allCells h List.length_replicate]
  exact ⟨hstores, by simp only [readsAgree_fillLog]⟩

theorem storesOf_scrollLog_eq_zip {m : Memory} (h : m.wf) (c : Byte) :
    storesOf (scrollLog m c) = (List.range' 0 2000).zip (keptCells m ++ List.replicate 80 (blank c)) := by
  have hrange : List.range' 0 2000 = List.range' 0 1920 ++ List.range' 1920 80 :=
    (List.range'_append_1 (s := 0) (m := 1920) (n := 80)).symm
  have hlen : (List.range' 0 1920).length = (keptCells m).length := by simp [length_keptCells h]
  rw [scrollLog, storesOf_append, storesOf_copyLog, storesOf_fillLog_eq_zip, length_keptCells h, hrange,
    List.zip_append hlen]

/-- A copy reads the cell one row below the one it stores, which no earlier copy has stored. -/
theorem readsAgree_copyLog (vs : List GridCell) (i : Nat) {m : Memory}
    (h : ∀ k, k < vs.length → m.readCell (i + 80 + k) = vs[k]?) : readsAgree m (copyLog i vs) := by
  induction vs generalizing m i with
  | nil => trivial
  | cons v vs ih =>
    refine ⟨h 0 (Nat.succ_pos _), ih (i + 1) fun k hk => ?_⟩
    have hcell : i + 1 + 80 + k = i + 80 + (k + 1) := by omega
    rw [Memory.readCell_setCell, if_neg (by omega), hcell, h (k + 1) (Nat.succ_lt_succ hk), List.getElem?_cons_succ]

theorem readsAgree_scrollLog {m : Memory} (h : m.wf) (c : Byte) : readsAgree m (scrollLog m c) := by
  refine (readsAgree_append _ _ _).mpr ⟨readsAgree_copyLog _ 0 fun k _ => ?_, ?_⟩
  · rw [keptCells, List.getElem?_drop, h.getElem?_toCells, Nat.zero_add]
  · exact readsAgree_fillLog _ _ _ _

theorem replaysTo_scrollLog {m : Memory} (h : m.wf) (c : Byte) : ReplaysTo m (scrollLog m c) (scrolledMem m c) := by
  refine ⟨?_, readsAgree_scrollLog h c⟩
  rw [storesOf_scrollLog_eq_zip h, replay_allCells h (by simp [length_keptCells h]), scrolledMem]

/-! The commands. -/

/-- What `t` has logged beyond `s` leads from the grid of `s` to the grid of `t`. -/
def Traced (s t : State) : Prop := ∃ l, t.log = s.log ++ l ∧ ReplaysTo s.mem l t.mem

theorem Traced.of_kept {s t : State} (hmem : t.mem = s.mem) (hlog : t.log = s.log) : Traced s t :=
  ⟨[], by rw [hlog, List.append_nil], hmem ▸ ReplaysTo.nil s.mem⟩

theorem Traced.trans {s t u : State} (h : Traced s t) (h' : Traced t u) : Traced s u := by
  obtain ⟨l, hlog, hl⟩ := h
  obtain ⟨l', hlog', hl'⟩ := h'
  exact ⟨l ++ l', by rw [hlog', hlog, List.append_assoc], hl.append hl'⟩

theorem traced_stored (ch : Byte) (s : State) : Traced s (stored ch s) := ⟨_, rfl, ReplaysTo.write _ _ _⟩

theorem traced_fillGrid (v : GridCell) {s : State} (h : s.mem.wf) : Traced s (fillGrid v s) :=
  ⟨_, rfl, replaysTo_fillLog v h⟩

theorem traced_scrolled {s : State} (h : s.mem.wf) : Traced s (scrolled s) := ⟨_, rfl, replaysTo_scrollLog h s.color⟩

theorem traced_of_lineFeed {s t : State} (h : lineFeed s = .next t) : Traced s t := by
  rcases lineFeed_eq_next h with ⟨-, rfl⟩ | ⟨-, hwf, rfl⟩
  · exact Traced.of_kept rfl rfl
  · exact (traced_scrolled hwf).trans (Traced.of_kept rfl rfl)

theorem traced_of_advancePrintable {ch : Byte} {s t : State} (h : advancePrintable ch s = .next t) : Traced s t := by
  obtain ⟨-, ⟨-, rfl⟩ | ⟨-, hfeed⟩⟩ := advancePrintable_eq_next h
  · exact (traced_stored ch s).trans (Traced.of_kept rfl rfl)
  · have hcol : Traced (stored ch s) ((stored ch s).withCol 0#7) := Traced.of_kept rfl rfl
    exact (traced_stored ch s).trans (hcol.trans (traced_of_lineFeed hfeed))

theorem traced_of_advance {ch : Byte} {s t : State} (h : advance ch s = .next t) : Traced s t := by
  have hcol : Traced s (s.withCol 0#7) := Traced.of_kept rfl rfl
  unfold advance at h
  cases hclass : classify ch with
  | newline => rw [hclass] at h; exact hcol.trans (traced_of_lineFeed h)
  | carriageReturn => rw [hclass] at h; cases h; exact hcol
  | printable => rw [hclass] at h; exact traced_of_advancePrintable h

/-- R16, R62: what a command logs is what it did to the grid. Only a fill needs the grid whole. -/
theorem traced_of_exec {i : Instr} {s t : State} (hwf : s.mem.wf) (h : exec i s = .next t) : Traced s t := by
  cases i with
  | init =>
    cases h
    exact traced_fillGrid (blank defaultAttr) (s := ((s.withRow 0#5).withCol 0#7).withColor defaultAttr) hwf
  | clear =>
    cases h
    exact (traced_fillGrid (blank s.color) hwf).trans (Traced.of_kept rfl rfl)
  | setcolor attr => cases h; exact Traced.of_kept rfl rfl
  | setcolorfb fg bg => cases h; exact Traced.of_kept rfl rfl
  | wrch ch => exact traced_of_advance h
  | wrchc ch attr =>
    have hcolor : Traced s (s.withColor attr) := Traced.of_kept rfl rfl
    exact hcolor.trans (traced_of_advance h)
  | setcursor row col => cases h; exact Traced.of_kept rfl rfl

/-- Settles O16: the accesses are those of `traced_of_exec`. -/
theorem traceReplaysToTheGrid : Obligations.TraceReplaysToTheGrid := by
  intro i s t hwf h
  obtain ⟨l, hlog, hreplay, hreads⟩ := traced_of_exec hwf h
  refine ⟨l, hlog, hreplay, hreads, ?_, ?_⟩
  · rw [displayView, List.take_length, hreplay]
  · rw [accessesSince, hlog, List.drop_left]

/-! The log since reset. -/

theorem State.LogFaithful.wf {s : State} (h : s.LogFaithful) : s.mem.wf :=
  ReplaysTo.wf (l := s.log) h (wf_resetMemory _)

theorem logFaithful_hardReset (s : State) : (hardReset s).LogFaithful := by
  simp only [State.LogFaithful, hardReset_resets, hardReset_log, hardReset_mem]
  exact ReplaysTo.nil _

/-- The new accesses continue the old log. -/
theorem State.LogFaithful.of_traced {s t : State} (h : s.LogFaithful) (htrace : Traced s t) (hresets : t.resets = s.resets) :
    t.LogFaithful := by
  obtain ⟨l, hlog, hl⟩ := htrace
  have hs : ReplaysTo (resetMemory s.resets) s.log s.mem := h
  rw [State.LogFaithful, hresets, hlog]
  exact hs.append hl

/-- Settles O15: a reset starts an empty log over its own grid, a command's accesses continue the log (`traced_of_exec`),
every other step keeps both. -/
theorem stepKeepsLogFaithful : Obligations.StepKeepsLogFaithful := by
  intro s t h hstep
  rcases step_eq_next hstep with ⟨rest, -, rfl⟩ | ⟨rest, w, i, -, -, hexec⟩ | ⟨⟨-, -, -, hmem⟩, ⟨hlog, -⟩, hresets⟩
  · exact logFaithful_hardReset _
  · obtain ⟨-, -, hresets⟩ := commandsNeverTouchTheStream i (s.withHost rest) t hexec
    have htrace : Traced (s.withHost rest) t := traced_of_exec (s := s.withHost rest) h.wf hexec
    exact h.of_traced htrace hresets
  · exact h.of_traced (Traced.of_kept hmem hlog) hresets

end Sys2Proof.Machine
end

section
/-! The cells and their bytes: the index mapping (20_memory.md R52), a cell's two bytes (R53, R55), stores repeated (R59). -/

namespace Sys2Proof.Machine

/-- Settles O21: quotient and remainder by the row's length. -/
theorem cellIndexIsBijective : Obligations.CellIndexIsBijective := by
  refine ⟨fun r c hr hc => ⟨rfl, ?_⟩, fun i hi => ?_⟩ <;> simp only [idx, Config.columns] <;> omega

/-- A cell's value is its two bytes, glyph first. -/
theorem Memory.readCell_eq_some_iff (m : Memory) (i : Nat) (v : GridCell) :
    m.readCell i = some v ↔ m.read (2 * i) = some (glyphOf v) ∧ m.read (2 * i + 1) = some (attrOf v) := by
  constructor
  · intro h
    unfold Memory.readCell cellOffset at h
    split at h
    · next glyph attr hglyph hattr => cases h; simp [hglyph, hattr]
    · cases h
  · rintro ⟨hglyph, hattr⟩
    simp [Memory.readCell, cellOffset, hglyph, hattr]

theorem Memory.set_set (m : Memory) (a : Nat) (v w : Byte) : (m.set a v).set a w = m.set a w := by
  induction m with
  | nil => rfl
  | cons e m ih =>
    obtain ⟨k, b⟩ := e
    by_cases h : a = k
    · simp [Memory.set, h]
    · simp [Memory.set, h, ih]

theorem Memory.set_comm (m : Memory) {a b : Nat} (hab : a ≠ b) (v w : Byte) :
    (m.set a v).set b w = (m.set b w).set a v := by
  induction m with
  | nil => rfl
  | cons e m ih =>
    obtain ⟨k, c⟩ := e
    by_cases ha : a = k
    · have hb : b ≠ k := fun hb => hab (ha.trans hb.symm)
      simp [Memory.set, ha, hb]
    · by_cases hb : b = k <;> simp [Memory.set, ha, hb, ih]

/-- The last store to a cell decides. -/
theorem Memory.setCell_setCell (m : Memory) (i : Nat) (v w : GridCell) : (m.setCell i v).setCell i w = m.setCell i w := by
  have hne : cellOffset i + 1 ≠ cellOffset i := Nat.succ_ne_self _
  simp only [Memory.setCell]
  rw [Memory.set_comm _ hne, Memory.set_set, Memory.set_set]

end Sys2Proof.Machine
end

section
/-! The host's reads of the grid (20_memory.md R58, R59). -/

namespace Sys2Proof.Machine

theorem hostRead_grid_of_some {o n : Nat} {s : State} {d : ReadData} (h : readGrid o n s = some d) :
    hostRead .grid o n s = .next (s.observe d) := by
  simp [hostRead, h]

theorem hostRead_grid_of_none {o n : Nat} {s : State} (h : readGrid o n s = none) :
    hostRead .grid o n s = .refused (.accessShape .grid o n) := by
  simp [hostRead, h]

theorem readGrid_byte {o : Nat} {s : State} {b : Byte} (h : s.mem.read o = some b) :
    readGrid o 1 s = some (.byte b) := by
  simp [readGrid, h]

theorem readGrid_cell {i : Nat} {s : State} {v : GridCell} (h : s.cell i = some v) :
    readGrid (2 * i) 2 s = some (.cell v) := by
  simp [readGrid, h]

theorem readGrid_pair {i : Nat} (heven : i % 2 = 0) {s : State} {v v' : GridCell} (h : s.cell i = some v)
    (h' : s.cell (i + 1) = some v') : readGrid (2 * i) 4 s = some (.word (v' ++ v)) := by
  have halign : 2 * i % 4 = 0 := by omega
  simp [readGrid, halign, h, h']

/-- A read of the grid inside the interface: a byte, an aligned cell, or an aligned pair of cells (R58, log entry 6). -/
abbrev IsGridRead (offset bytes : Nat) : Prop :=
  offset < 4000 ∧ (bytes = 1 ∨ (bytes = 2 ∧ offset % 2 = 0) ∨ (bytes = 4 ∧ offset % 4 = 0))

theorem readGrid_eq_none {o n : Nat} {s : State} (hwf : s.mem.wf) (h : ¬IsGridRead o n) : readGrid o n s = none := by
  unfold readGrid
  split_ifs with hbyte hcell hpair
  · have hread := hwf.read_isSome o
    have ho : ¬o < 4000 := fun ho => h ⟨ho, .inl hbyte⟩
    simpa [ho] using hread
  · have ho : ¬o < 4000 := fun ho => h ⟨ho, .inr (.inl hcell)⟩
    simp [hwf.readCell_eq_none (i := o / 2) (by omega)]
  · have ho : ¬o < 4000 := fun ho => h ⟨ho, .inr (.inr hpair)⟩
    simp [hwf.readCell_eq_none (i := o / 2) (by omega)]
  · rfl

/-- Settles O24: in a whole grid every cell has a value, whose bytes are the ones listed; a shape outside `IsGridRead` reads
nothing. -/
theorem hostReadsOfTheGrid : Obligations.HostReadsOfTheGrid := by
  refine fun s hwf => ⟨fun i hi => ?_, fun i hi heven => ?_, fun o n h => hostRead_grid_of_none (readGrid_eq_none hwf h)⟩
  · obtain ⟨v, hv⟩ := hwf.readCell_eq_some hi
    obtain ⟨hglyph, hattr⟩ := (Memory.readCell_eq_some_iff s.mem i v).mp hv
    exact ⟨v, hv, hostRead_grid_of_some (readGrid_cell hv), hostRead_grid_of_some (readGrid_byte hglyph),
      hostRead_grid_of_some (readGrid_byte hattr)⟩
  · obtain ⟨v, hv⟩ := hwf.readCell_eq_some hi
    obtain ⟨v', hv'⟩ := hwf.readCell_eq_some (i := i + 1) (by omega)
    exact ⟨v, v', hv, hv', hostRead_grid_of_some (readGrid_pair heven hv hv')⟩

/-- What the host has seen does not enter what a read returns. -/
theorem hostRead_repeats {g : Region} {o n : Nat} {s t : State} (h : hostRead g o n s = .next t) :
    ∃ d, t = s.observe d ∧ hostRead g o n t = .next (t.observe d) := by
  unfold hostRead at h
  split at h
  · next d hd =>
    cases h
    refine ⟨d, rfl, ?_⟩
    cases g with
    | grid => exact hostRead_grid_of_some (s := s.observe d) hd
    | regs => exact hostRead_regs_of_some (s := s.observe d) hd
  · cases h

/-- Settles O25: a read is repeated by `hostRead_repeats`, a cell store by `Memory.setCell_setCell`. -/
theorem readsHaveNoSideEffect : Obligations.ReadsHaveNoSideEffect :=
  ⟨fun _ _ _ _ _ h => hostRead_repeats h, fun m i v => Memory.setCell_setCell m i v v⟩

end Sys2Proof.Machine
end

section
/-! The bytes of a command (20_memory.md R55, 30_encoding.md R80, R93), and the physical addresses of the cells
(20_memory.md R50, R53). -/

namespace Sys2Proof

open Machine

theorem decodeBytes_bytesOfWord (w : Word) : decodeBytes (bytesOfWord w) = decode w := by
  simp [decodeBytes, wordOf?_bytesOfWord]

theorem decodeBytes_of_length_ne {bs : List Byte} (h : bs.length ≠ 4) :
    decodeBytes bs = .error (.notOneWord bs.length) := by
  have hnone : wordOf? bs = none := by simpa [h] using wordOf?_isSome_iff bs
  simp [decodeBytes, hnone]

/-- Settles O7: bytes and word determine each other, at length 4 alone. -/
theorem commandBytesAreLittleEndian : Obligations.CommandBytesAreLittleEndian := by
  refine ⟨fun w => ⟨rfl, wordOf?_bytesOfWord w, decodeBytes_bytesOfWord w⟩, fun b0 b1 b2 b3 => ⟨rfl, ?_⟩,
    fun _ h => decodeBytes_of_length_ne h⟩
  simpa [bytesOfWord] using bytesOfWord_wordOfBytes b0 b1 b2 b3

theorem Layout.locate_grid (L : Layout) {k : Nat} (hk : k < 4000) : L.locate (L.gridBase + k) = some (.grid, k) := by
  simp [Layout.locate, hk]

theorem Layout.locate_outside (L : Layout) {a : Nat} (hgrid : ¬(L.gridBase ≤ a ∧ a ≤ L.gridBase + 3999))
    (hregs : ¬(L.regBase ≤ a ∧ a < L.regBase + 12)) : L.locate a = none := by
  have hgrid' : ¬(L.gridBase ≤ a ∧ a < L.gridBase + Config.gridBytes) := by simp only [Config.gridBytes]; omega
  rw [Layout.locate, if_neg hgrid', if_neg hregs]

/-- A memory read in the grid, one byte further. -/
theorem Layout.memRead_grid_succ (L : Layout) {m : Memory} {k n : Nat} {b : Byte} {bs : List Byte} (hk : k < 4000)
    (hb : m.read k = some b) (hbs : L.memRead m (L.gridBase + (k + 1)) n = some bs) :
    L.memRead m (L.gridBase + k) (n + 1) = some (b :: bs) := by
  simp only [Layout.memRead, L.locate_grid hk, hb, Nat.add_assoc, hbs]

theorem Layout.memRead_cell (L : Layout) {m : Memory} {i : Nat} (hi : i < 2000) {v : GridCell} (hv : m.readCell i = some v) :
    L.memRead m (L.gridBase + 2 * i) 2 = some [glyphOf v, attrOf v] := by
  obtain ⟨hglyph, hattr⟩ := (Memory.readCell_eq_some_iff m i v).mp hv
  exact L.memRead_grid_succ (by omega) hglyph (L.memRead_grid_succ (by omega) hattr rfl)

/-- Settles O22: the cell of `(r, c)` is `160 r + 2 c` bytes into the grid region. -/
theorem physicalAddressesReachTheirCells : Obligations.PhysicalAddressesReachTheirCells := by
  refine fun L hL => ⟨fun r c hr hc => ?_, fun k hk => Layout.locate_regs hL hk,
    fun a hgrid hregs => L.locate_outside hgrid hregs, fun m i hwf hi => ?_⟩
  · have hoffset : cellOffset (idx r c) = 160 * r + 2 * c := by simp only [cellOffset, idx, Config.columns]; omega
    rw [hoffset, Nat.add_assoc, Nat.add_assoc]
    exact ⟨L.locate_grid (by omega), L.locate_grid (by omega)⟩
  · obtain ⟨v, hv⟩ := hwf.readCell_eq_some hi
    rw [L.memRead_cell hi hv, hv, Option.map_some]

end Sys2Proof
end

section
/-! Fields of a command word (30_encoding.md R81, R82) as masks, so that the two formulations of R90, by the rows of R83 and
by cases of `op`, are one test under a mask; what a word that decodes to a command is, and what a reserved word is; encode
after decode. -/

namespace Sys2Proof

open Machine

/-- The mask of the `n` bits of a word from bit `lo` up. -/
def fieldMask (lo n : Nat) : Word := (BitVec.allOnes n).setWidth 32 <<< lo

/-- A field put back in its place is the word under the field's mask. -/
theorem shiftLeft_extractLsb' (w : Word) (lo n : Nat) :
    (w.extractLsb' lo n).setWidth 32 <<< lo = w &&& fieldMask lo n := by
  ext k hk
  by_cases h : k < lo
  · simp [fieldMask, h]
  · have hbit : lo + (k - lo) = k := by omega
    simp [fieldMask, h, hbit, hk, Bool.and_comm]

theorem setWidth_extractLsb'_zero (w : Word) (n : Nat) : (w.extractLsb' 0 n).setWidth 32 = w &&& fieldMask 0 n := by
  simpa using shiftLeft_extractLsb' w 0 n

/-- A value put in a field's place is what the field reads. -/
theorem extractLsb'_shiftLeft {lo n : Nat} (h : lo + n ≤ 32) (v : BitVec n) :
    (v.setWidth 32 <<< lo).extractLsb' lo n = v := by
  ext k hk
  have hbit : lo + k < 32 := by omega
  simp [hbit, BitVec.getLsbD_eq_getElem hk]

/-- A field's value is a test under the field's mask. -/
theorem extractLsb'_eq_iff {lo n : Nat} (h : lo + n ≤ 32) {w : Word} {v : BitVec n} :
    w.extractLsb' lo n = v ↔ w &&& fieldMask lo n = v.setWidth 32 <<< lo := by
  rw [← shiftLeft_extractLsb']
  refine ⟨fun e => by rw [e], fun e => ?_⟩
  rw [← extractLsb'_shiftLeft h (w.extractLsb' lo n), e, extractLsb'_shiftLeft h]

/-- A test under two disjoint masks is a test under each. -/
theorem and_or_eq_iff {w m m' p p' : Word} (hdisjoint : m &&& m' = 0#32) (hp : p &&& m = p) (hp' : p' &&& m' = p') :
    w &&& (m ||| m') = p ||| p' ↔ w &&& m = p ∧ w &&& m' = p' := by
  have hpart : ∀ {n n' q q' : Word}, n &&& n' = 0#32 → q &&& n = q → q' &&& n' = q' → w &&& (n ||| n') = q ||| q' →
      w &&& n = q := by
    intro n n' q q' hn hq hq' h
    calc w &&& n = w &&& (n ||| n') &&& n := by
          rw [BitVec.and_assoc, BitVec.and_or_distrib_right, BitVec.and_comm n', hn]; simp
      _ = (q &&& n) ||| (q' &&& n' &&& n) := by rw [h, BitVec.and_or_distrib_right, hq']
      _ = q := by rw [BitVec.and_assoc, BitVec.and_comm n', hn, hq]; simp
  refine ⟨fun h => ⟨hpart hdisjoint hp hp' h, ?_⟩, fun ⟨h, h'⟩ => by rw [BitVec.and_or_distrib_left, h, h']⟩
  exact hpart (BitVec.and_comm m m' ▸ hdisjoint) hp' hp (by rw [BitVec.or_comm m', h, BitVec.or_comm])

/-! The rows of R83 as cases of `op` and the must-be-0 bits (R90). -/

theorem rowInit_admits_iff (w : Word) :
    rowInit.admits w = true ↔ w.extractLsb' 24 8 = 0x01#8 ∧ w.extractLsb' 0 24 = 0#24 := by
  rw [OpRow.admits_iff, extractLsb'_eq_iff (by decide), extractLsb'_eq_iff (by decide),
    ← and_or_eq_iff (by decide) (by decide) (by decide)]
  rfl

theorem rowClear_admits_iff (w : Word) :
    rowClear.admits w = true ↔ w.extractLsb' 24 8 = 0x02#8 ∧ w.extractLsb' 0 24 = 0#24 := by
  rw [OpRow.admits_iff, extractLsb'_eq_iff (by decide), extractLsb'_eq_iff (by decide),
    ← and_or_eq_iff (by decide) (by decide) (by decide)]
  rfl

theorem rowSetcolor_admits_iff (w : Word) :
    rowSetcolor.admits w = true ↔ w.extractLsb' 24 8 = 0x03#8 ∧ w.extractLsb' 8 16 = 0#16 := by
  rw [OpRow.admits_iff, extractLsb'_eq_iff (by decide), extractLsb'_eq_iff (by decide),
    ← and_or_eq_iff (by decide) (by decide) (by decide)]
  rfl

theorem rowSetcolorfb_admits_iff (w : Word) :
    rowSetcolorfb.admits w = true ↔
      w.extractLsb' 24 8 = 0x04#8 ∧ w.extractLsb' 12 12 = 0#12 ∧ w.extractLsb' 4 4 = 0#4 := by
  rw [OpRow.admits_iff, extractLsb'_eq_iff (by decide), extractLsb'_eq_iff (by decide), extractLsb'_eq_iff (by decide),
    ← and_or_eq_iff (by decide) (by decide) (by decide), ← and_or_eq_iff (by decide) (by decide) (by decide)]
  rfl

theorem rowWrch_admits_iff (w : Word) :
    rowWrch.admits w = true ↔
      w.extractLsb' 24 8 = 0x05#8 ∧ w.extractLsb' 16 8 = 0x00#8 ∧ w.extractLsb' 8 8 = 0#8 := by
  rw [OpRow.admits_iff, extractLsb'_eq_iff (by decide), extractLsb'_eq_iff (by decide), extractLsb'_eq_iff (by decide),
    ← and_or_eq_iff (by decide) (by decide) (by decide), ← and_or_eq_iff (by decide) (by decide) (by decide)]
  rfl

theorem rowWrchc_admits_iff (w : Word) :
    rowWrchc.admits w = true ↔ w.extractLsb' 24 8 = 0x05#8 ∧ w.extractLsb' 16 8 = 0x01#8 := by
  rw [OpRow.admits_iff, extractLsb'_eq_iff (by decide), extractLsb'_eq_iff (by decide),
    ← and_or_eq_iff (by decide) (by decide) (by decide)]
  rfl

theorem rowSetcursor_admits_iff (w : Word) : rowSetcursor.admits w = true ↔ w.extractLsb' 24 8 = 0x06#8 := by
  rw [OpRow.admits_iff, extractLsb'_eq_iff (by decide)]
  rfl

/-! What `decode` can answer. -/

/-- A word that decodes to a command matches the row of that command, whose operands are the word's fields. -/
theorem decode_eq_ok {w : Word} {i : Instr} (h : decode w = .ok i) :
    (i = .init ∧ rowInit.admits w = true) ∨ (i = .clear ∧ rowClear.admits w = true) ∨
    (i = .setcolor (attrFieldA w) ∧ rowSetcolor.admits w = true) ∨
    (i = .setcolorfb (fgField w) (bgField w) ∧ rowSetcolorfb.admits w = true) ∨
    (i = .wrch (chField w) ∧ rowWrch.admits w = true) ∨
    (i = .wrchc (chField w) (attrFieldCC w) ∧ rowWrchc.admits w = true) ∨
    (i = .setcursor (rowField w).toInt (colField w).toInt ∧ rowSetcursor.admits w = true) := by
  unfold decode at h
  split_ifs at h <;> cases h <;> simp only [*, true_and, true_or, or_true]

theorem row_admits_of_decode {w : Word} {i : Instr} (h : decode w = .ok i) : i.row.admits w = true := by
  rcases decode_eq_ok h with ⟨rfl, hw⟩ | ⟨rfl, hw⟩ | ⟨rfl, hw⟩ | ⟨rfl, hw⟩ | ⟨rfl, hw⟩ | ⟨rfl, hw⟩ | ⟨rfl, hw⟩ <;> exact hw

/-- A reserved word is one that matches no row (R90). -/
theorem decode_eq_error_iff (w : Word) : (∃ e, decode w = .error e) ↔ ∀ r ∈ opRows, ¬r.admits w = true := by
  simp only [opRows, List.forall_mem_cons, List.not_mem_nil, false_imp_iff, implies_true, and_true]
  constructor
  · rintro ⟨e, h⟩
    unfold decode at h
    split_ifs at h
    exact ⟨‹_›, ‹_›, ‹_›, ‹_›, ‹_›, ‹_›, ‹_›⟩
  · rintro ⟨hInit, hClear, hSetcolor, hSetcolorfb, hWrch, hWrchc, hSetcursor⟩
    exact ⟨_, by simp only [decode, hInit, hClear, hSetcolor, hSetcolorfb, hWrch, hWrchc, hSetcursor]; rfl⟩

theorem exists_decode_of_admits {w : Word} {r : OpRow} (hr : r ∈ opRows) (h : r.admits w = true) :
    ∃ i, decode w = .ok i ∧ i.row = r := by
  cases hdec : decode w with
  | ok i => exact ⟨i, rfl, opRow_unique i.row_mem_opRows hr (row_admits_of_decode hdec) h⟩
  | error e => exact absurd h ((decode_eq_error_iff w).mp ⟨e, hdec⟩ r hr)

/-- A word that matches a row is the row's pattern and the bits that the row's mask leaves free. -/
theorem OpRow.pattern_or_free {r : OpRow} {w free : Word} (h : r.admits w = true)
    (hfree : r.mask ||| free = BitVec.allOnes 32) : r.pattern ||| (w &&& free) = w := by
  rw [← (r.admits_iff w).mp h, ← BitVec.and_or_distrib_left, hfree, BitVec.and_allOnes]

/-- A row whose mask tests every bit has one word. -/
theorem OpRow.admits_iff_eq_pattern {r : OpRow} (hmask : r.mask = BitVec.allOnes 32) {w : Word} :
    r.admits w = true ↔ r.pattern = w := by
  rw [r.admits_iff, hmask, BitVec.and_allOnes, eq_comm]

/-- No bit of a command word is left out of the command it decodes to. -/
theorem encode_of_decode {w : Word} {i : Instr} (h : decode w = .ok i) : encode i = w := by
  rcases decode_eq_ok h with ⟨rfl, hw⟩ | ⟨rfl, hw⟩ | ⟨rfl, hw⟩ | ⟨rfl, hw⟩ | ⟨rfl, hw⟩ | ⟨rfl, hw⟩ | ⟨rfl, hw⟩
  · exact (OpRow.admits_iff_eq_pattern rfl).mp hw
  · exact (OpRow.admits_iff_eq_pattern rfl).mp hw
  · rw [encode, attrFieldA, setWidth_extractLsb'_zero]
    exact OpRow.pattern_or_free hw (by decide)
  · rw [encode, bgField, shiftLeft_extractLsb', fgField, setWidth_extractLsb'_zero, BitVec.or_assoc,
      ← BitVec.and_or_distrib_left]
    exact OpRow.pattern_or_free hw (by decide)
  · rw [encode, chField, setWidth_extractLsb'_zero]
    exact OpRow.pattern_or_free hw (by decide)
  · rw [encode, attrFieldCC, shiftLeft_extractLsb', chField, setWidth_extractLsb'_zero, BitVec.or_assoc,
      ← BitVec.and_or_distrib_left]
    exact OpRow.pattern_or_free hw (by decide)
  · rw [encode, BitVec.ofInt_toInt, BitVec.ofInt_toInt, rowField, shiftLeft_extractLsb', colField,
      setWidth_extractLsb'_zero, BitVec.or_assoc, ← BitVec.and_or_distrib_left]
    exact OpRow.pattern_or_free hw (by decide)

/-- `sext_12` of a field is a coordinate that 12 bits hold (R89). -/
theorem fits12_toInt (v : BitVec 12) : fits12 v.toInt :=
  ⟨v.le_toInt, by have := v.toInt_lt; omega⟩

theorem wellFormed_of_decode {w : Word} {i : Instr} (h : decode w = .ok i) : i.wellFormed := by
  rcases decode_eq_ok h with ⟨rfl, -⟩ | ⟨rfl, -⟩ | ⟨rfl, -⟩ | ⟨rfl, -⟩ | ⟨rfl, -⟩ | ⟨rfl, -⟩ | ⟨rfl, -⟩
  exacts [trivial, trivial, trivial, trivial, trivial, trivial, ⟨fits12_toInt _, fits12_toInt _⟩]

/-- Settles O4: the encoded word matches the command's row and no other, and its fields are the operands. -/
theorem decodeOfEncodeIsTheCommand : Obligations.DecodeOfEncodeIsTheCommand :=
  fun _ h => decode_encode h

/-- Settles O1: two rows differ on a bit that both test, and `decode` answers by the row that a word matches. -/
theorem opcodeMapRowsAreDisjoint : Obligations.OpcodeMapRowsAreDisjoint := by
  refine ⟨rfl, fun w r r' hr hr' h h' => ?_, fun w i hdec => ?_, fun w r hr h => ?_⟩
  · exact opRow_unique hr hr' ((r.admits_iff w).mpr h) ((r'.admits_iff w).mpr h')
  · exact ⟨i.row_mem_opRows, (i.row.admits_iff w).mp (row_admits_of_decode hdec)⟩
  · exact exists_decode_of_admits hr ((r.admits_iff w).mpr h)

/-- Settles O2: each row's test is its case of `op` and of the must-be-0 bits. -/
theorem decodeIsByOpcodeCases : Obligations.DecodeIsByOpcodeCases := by
  refine ⟨fun w => ?_, fun w => ?_, fun w i s hdec => ?_, fun w r s hdec => runWord_of_decode_error hdec s⟩
  · simp only [decode, rowInit_admits_iff, rowClear_admits_iff, rowSetcolor_admits_iff, rowSetcolorfb_admits_iff,
      rowWrch_admits_iff, rowWrchc_admits_iff, rowSetcursor_admits_iff]
    rfl
  · simp only [decode_eq_error_iff, OpRow.admits_iff, ne_eq]
  · exact ⟨(i.row.admits_iff w).mp (row_admits_of_decode hdec), runWord_of_decode_ok hdec s⟩

/-- Settles O5: a word is its row's pattern and its fields. -/
theorem encodeOfDecodeIsTheWord : Obligations.EncodeOfDecodeIsTheWord :=
  fun _ _ h => ⟨encode_of_decode h, wellFormed_of_decode h⟩

/-- Bits 23:16, the form byte of `op` 0x05, are bits 23:17 and bit 16 (R82, R91). -/
theorem form_toNat (w : Word) :
    (w.extractLsb' 16 8).toNat = 2 * (w.extractLsb' 17 7).toNat + (w.extractLsb' 16 1).toNat := by
  simp only [BitVec.extractLsb'_toNat, Nat.shiftRight_eq_div_pow]
  omega

theorem form_eq_zero_iff (w : Word) :
    w.extractLsb' 16 8 = 0x00#8 ↔ w.extractLsb' 17 7 = 0#7 ∧ w.extractLsb' 16 1 = 0#1 := by
  have hform := form_toNat w
  simp only [← BitVec.toNat_inj, BitVec.toNat_ofNat]
  omega

theorem form_eq_one_iff (w : Word) :
    w.extractLsb' 16 8 = 0x01#8 ↔ w.extractLsb' 17 7 = 0#7 ∧ w.extractLsb' 16 1 ≠ 0#1 := by
  have hform := form_toNat w
  have hbit : (w.extractLsb' 16 1).toNat < 2 := BitVec.isLt _
  simp only [ne_eq, ← BitVec.toNat_inj, BitVec.toNat_ofNat]
  omega

theorem opcode_cases (op : Byte) :
    op = 0#8 ∨ op = 1#8 ∨ op = 2#8 ∨ op = 3#8 ∨ op = 4#8 ∨ op = 5#8 ∨ op = 6#8 ∨ 7 ≤ op.toNat := by
  simp only [← BitVec.toNat_inj, BitVec.toNat_ofNat]
  omega

/-- Settles O3: a word that matches no row, case by case of `op`. -/
theorem reservedWordsAreIgnored : Obligations.ReservedWordsAreIgnored := by
  refine ⟨fun w => ?_, fun w r s hdec => ?_⟩
  · simp only [decode_eq_error_iff, opRows, List.forall_mem_cons, List.not_mem_nil, false_imp_iff, implies_true, and_true,
      rowInit_admits_iff, rowClear_admits_iff, rowSetcolor_admits_iff, rowSetcolorfb_admits_iff, rowWrch_admits_iff,
      rowWrchc_admits_iff, rowSetcursor_admits_iff, form_eq_zero_iff, form_eq_one_iff]
    rcases opcode_cases (w.extractLsb' 24 8) with hop | hop | hop | hop | hop | hop | hop | hop
    · simp [hop]
    · simp [hop]
    · simp [hop]
    · simp [hop]
    · simp [hop, imp_iff_not_or]
    · by_cases hbit : w.extractLsb' 16 1 = 0#1 <;> simp [hop, hbit, imp_iff_not_or]
    · simp [hop]
    · have hne : ∀ k : Byte, k.toNat < 7 → w.extractLsb' 24 8 ≠ k := fun k hk e => by rw [e] at hop; omega
      simpa [hne] using hop
  · rw [step_presentWord, runWord_of_decode_error hdec]
    exact ⟨rfl, rfl⟩

/-- Settles O6: one word or two of each format. -/
theorem specWordsDecode : Obligations.SpecWordsDecode := by
  refine ⟨?_, ?_, ?_, ?_, ?_, ?_, ?_, ?_⟩ <;> decide

end Sys2Proof
end

section
/-! The assembler's words (30_encoding.md R94 to R96): operands in range as fields, the bytes WRSTR stops at, and the words of
a line as the encodings of its commands. -/

namespace Sys2Proof.Machine

theorem AsmLine.rangesCheck_iff (l : AsmLine) : l.rangesCheck = true ↔ l.rangesHold := by
  cases l <;> simp [AsmLine.rangesCheck, AsmLine.rangesHold]

theorem AsmLine.words_of_rangesHold {l : AsmLine} (h : l.rangesHold) : l.words = .ok (l.commands.map encode) :=
  if_pos (l.rangesCheck_iff.mpr h)

theorem AsmLine.words_of_not_rangesHold {l : AsmLine} (h : ¬l.rangesHold) : l.words = .error .operandRange :=
  if_neg (mt l.rangesCheck_iff.mp h)

/-- Settles O55: the check is the ranges, and a line that passes it has the words of its commands. -/
theorem assemblerRefusesOutOfRange : Obligations.AssemblerRefusesOutOfRange := by
  refine fun l => ⟨⟨fun herr hrange => ?_, AsmLine.words_of_not_rangesHold⟩, fun h => ⟨_, AsmLine.words_of_rangesHold h⟩⟩
  rw [AsmLine.words_of_rangesHold hrange] at herr
  cases herr

/-- An operand that its field holds is the same number in the field and in the word. -/
theorem setWidth_ofInt {n : Nat} (hn : n ≤ 32) {v : Int} (hlo : 0 ≤ v) (hhi : v < 2 ^ n) :
    (BitVec.ofInt n v).setWidth 32 = BitVec.ofInt 32 v := by
  obtain ⟨k, rfl⟩ := Int.eq_ofNat_of_zero_le hlo
  have hk : k < 2 ^ n := by exact_mod_cast hhi
  rw [BitVec.ofInt_natCast, BitVec.ofInt_natCast, BitVec.setWidth_ofNat_of_le_of_lt hn hk]

theorem setWidth_ofInt_byte {v : Int} (h : inRange 0 255 v) : (BitVec.ofInt 8 v).setWidth 32 = BitVec.ofInt 32 v := by
  obtain ⟨hlo, hhi⟩ := h
  exact setWidth_ofInt (by decide) hlo (by omega)

theorem setWidth_ofInt_color {v : Int} (h : inRange 0 15 v) : (BitVec.ofInt 4 v).setWidth 32 = BitVec.ofInt 32 v := by
  obtain ⟨hlo, hhi⟩ := h
  exact setWidth_ofInt (by decide) hlo (by omega)

/-- R94's `v mod 4096`. -/
theorem setWidth_ofInt_coordinate (v : Int) : (BitVec.ofInt 12 v).setWidth 32 = BitVec.ofInt 32 (v % 4096) := by
  have hmod : BitVec.ofInt 12 v = BitVec.ofInt 12 (v % 4096) := by
    rw [← BitVec.toNat_inj, BitVec.toNat_ofInt, BitVec.toNat_ofInt]
    simp
  rw [hmod, setWidth_ofInt (by decide) (by omega) (by omega)]

theorem map_encode_wrbytes {bs : List Int} (h : ∀ b ∈ bs, inRange 0 255 b) :
    (wrbytes (bs.map (BitVec.ofInt 8))).map encode = bs.map fun b => 0x05000000#32 ||| BitVec.ofInt 32 b := by
  simp only [wrbytes, List.map_map]
  refine List.map_congr_left fun b hb => ?_
  simp only [Function.comp_apply, encode, setWidth_ofInt_byte (h b hb)]

/-- R163 at a list whose first zero byte is marked. -/
theorem strlen_append_zero {pre : List Byte} (h : 0#8 ∉ pre) (rest : List Byte) :
    strlen (pre ++ 0#8 :: rest) = some pre.length := by
  induction pre with
  | nil => rfl
  | cons b bs ih =>
    obtain ⟨hb, hbs⟩ := List.ne_and_not_mem_of_not_mem_cons h
    simp [strlen, Ne.symm hb, ih hbs]

theorem wrstr_append_zero {pre : List Byte} (h : 0#8 ∉ pre) (rest : List Byte) :
    wrstr (pre ++ 0#8 :: rest) = .ok (wrbytes pre) := by
  simp [wrstr, strlen_append_zero h]

theorem AsmLine.commands_wrstr {bs : List Int} {is : List Instr}
    (h : Machine.wrstr (bs.map (BitVec.ofInt 8) ++ [0#8]) = .ok is) :
    (AsmLine.wrstr bs).commands = is := by
  simp [AsmLine.commands, h]

/-- A byte operand other than 0 is no zero byte. -/
theorem zero_not_mem_map_ofInt {bs : List Int} (h : ∀ b ∈ bs, inRange 0 255 b) (hzero : 0 ∉ bs) :
    0#8 ∉ bs.map (BitVec.ofInt 8) := by
  intro hmem
  obtain ⟨b, hb, hb0⟩ := List.mem_map.mp hmem
  obtain ⟨hlo, hhi⟩ := h b hb
  have hnat : (b % 256).toNat = 0 := by simpa [BitVec.toNat_ofInt] using congrArg BitVec.toNat hb0
  exact hzero (by rwa [show b = 0 by omega] at hb)

/-- WRSTR's words are the words of the bytes before the first zero (R95). -/
theorem AsmLine.commands_wrstr_append_zero {pre : List Int} (h : ∀ b ∈ pre, inRange 0 255 b) (hzero : 0 ∉ pre)
    (rest : List Int) :
    (AsmLine.wrstr (pre ++ 0 :: rest)).commands = Machine.wrbytes (pre.map (BitVec.ofInt 8)) :=
  AsmLine.commands_wrstr (by simpa using wrstr_append_zero (zero_not_mem_map_ofInt h hzero) _)

theorem AsmLine.commands_wrstr_of_not_mem {bs : List Int} (h : ∀ b ∈ bs, inRange 0 255 b) (hzero : 0 ∉ bs) :
    (AsmLine.wrstr bs).commands = Machine.wrbytes (bs.map (BitVec.ofInt 8)) :=
  AsmLine.commands_wrstr (wrstr_append_zero (zero_not_mem_map_ofInt h hzero) [])

theorem wellFormed_of_mem_wrbytes {bs : List Byte} {i : Instr} (h : i ∈ wrbytes bs) : i.wellFormed := by
  obtain ⟨b, -, rfl⟩ := List.mem_map.mp h
  trivial

/-- Whatever its bytes, WRSTR is some WRBYTES (R162). -/
theorem AsmLine.exists_commands_wrstr (bs : List Int) : ∃ cs, (AsmLine.wrstr bs).commands = Machine.wrbytes cs := by
  cases hlen : strlen (bs.map (BitVec.ofInt 8) ++ [0#8]) with
  | some n => exact ⟨_, AsmLine.commands_wrstr (by rw [Machine.wrstr, hlen])⟩
  | none => exact ⟨[], by simp [AsmLine.commands, Machine.wrstr, hlen, Machine.wrbytes]⟩

theorem AsmLine.commands_wellFormed {l : AsmLine} (h : l.rangesHold) : ∀ i ∈ l.commands, i.wellFormed := by
  intro i hi
  cases l with
  | wrbytes bs => exact wellFormed_of_mem_wrbytes hi
  | wrstr bs =>
    obtain ⟨cs, hcs⟩ := AsmLine.exists_commands_wrstr bs
    exact wellFormed_of_mem_wrbytes (hcs ▸ hi)
  | setcursor row col => cases List.mem_singleton.mp hi; exact h
  | init | clear | setcolor | setcolorfb | wrch | wrchc => cases List.mem_singleton.mp hi; trivial

/-- What a line assembles to decodes to its commands. -/
theorem AsmLine.map_decode_words {l : AsmLine} {ws : List Word} (h : l.words = .ok ws) :
    ws.map decode = l.commands.map .ok := by
  by_cases hrange : l.rangesHold
  · cases (AsmLine.words_of_rangesHold hrange).symm.trans h
    rw [List.map_map]
    exact List.map_congr_left fun i hi => decode_encode (AsmLine.commands_wellFormed hrange i hi)
  · cases (AsmLine.words_of_not_rangesHold hrange).symm.trans h

/-- Settles O54: a line in range has the encodings of its commands, whose operands stand in their fields as they are. -/
theorem assemblerEmitsTheTableWords : Obligations.AssemblerEmitsTheTableWords := by
  refine ⟨rfl, rfl, fun a ha => ?_, fun f b hf hb => ?_, fun c hc => ?_, fun c a hc ha => ?_, fun r c hr hc => ?_,
    fun bs hbs => ?_, fun pre rest hbs hzero => ?_, fun bs hbs hzero => ?_, fun l ws h => l.map_decode_words h⟩
  · rw [AsmLine.words_of_rangesHold (l := .setcolor a) ha, ← setWidth_ofInt_byte ha]
    rfl
  · rw [AsmLine.words_of_rangesHold (l := .setcolorfb f b) ⟨hf, hb⟩, ← setWidth_ofInt_color hf, ← setWidth_ofInt_color hb]
    rfl
  · rw [AsmLine.words_of_rangesHold (l := .wrch c) hc, ← setWidth_ofInt_byte hc]
    rfl
  · rw [AsmLine.words_of_rangesHold (l := .wrchc c a) ⟨hc, ha⟩, ← setWidth_ofInt_byte hc, ← setWidth_ofInt_byte ha]
    rfl
  · rw [AsmLine.words_of_rangesHold (l := .setcursor r c) ⟨hr, hc⟩, ← setWidth_ofInt_coordinate, ← setWidth_ofInt_coordinate]
    rfl
  · rw [AsmLine.words_of_rangesHold (l := .wrbytes bs) hbs, ← map_encode_wrbytes hbs]
    rfl
  · have hpre : ∀ b ∈ pre, inRange 0 255 b := fun b hb => hbs b (List.mem_append_left _ hb)
    rw [AsmLine.words_of_rangesHold (l := .wrstr (pre ++ 0 :: rest)) hbs, AsmLine.commands_wrstr_append_zero hpre hzero,
      map_encode_wrbytes hpre]
  · rw [AsmLine.words_of_rangesHold (l := .wrstr bs) hbs, AsmLine.commands_wrstr_of_not_mem hbs hzero,
      map_encode_wrbytes hbs]

end Sys2Proof.Machine
end

section
/-! The codec's two formats (40_cell_codec.md R110, R111): the low part or-ed with the shifted high part is their
concatenation, from which the fields, the number and the two inversion laws follow. -/

namespace Sys2Proof.Machine

/-- `lo | (hi << n)`, with `n` the width of `lo`. -/
theorem setWidth_or_shiftLeft_eq_append {n m : Nat} (lo : BitVec n) (hi : BitVec m) :
    lo.setWidth (m + n) ||| (hi.setWidth (m + n) <<< n) = hi ++ lo := by
  rw [BitVec.append_def, BitVec.shiftLeftZeroExtend_eq, BitVec.setWidth'_eq, BitVec.or_comm]

theorem toNat_append_eq_add {n m : Nat} (hi : BitVec m) (lo : BitVec n) :
    (hi ++ lo).toNat = 2 ^ n * hi.toNat + lo.toNat := by
  rw [BitVec.toNat_append, ← Nat.shiftLeft_add_eq_or_of_lt lo.isLt, Nat.shiftLeft_eq, Nat.mul_comm]

/-! `encode_cell` (R110). -/

theorem encodeCell_eq_append (g a : Byte) : encodeCell g a = a ++ g := setWidth_or_shiftLeft_eq_append g a

theorem toNat_encodeCell (g a : Byte) : (encodeCell g a).toNat = 256 * a.toNat + g.toNat := by
  rw [encodeCell_eq_append]
  exact toNat_append_eq_add a g

theorem encodeCell_inj {g a g' a' : Byte} (h : encodeCell g a = encodeCell g' a') : g = g' ∧ a = a' :=
  ⟨by simpa using congrArg glyphOf h, by simpa using congrArg attrOf h⟩

/-- Settles O26: the parts are read back, and every cell is the cell of its parts. -/
theorem cellPacksGlyphLowAttrHigh : Obligations.CellPacksGlyphLowAttrHigh := by
  refine ⟨fun g a => ⟨rfl, glyphOf_encodeCell g a, attrOf_encodeCell g a, toNat_encodeCell g a, encodeCell_eq_append g a⟩,
    fun _ _ _ _ h => encodeCell_inj h, fun c => ⟨glyphOf c, attrOf c, encodeCell_parts c⟩, ?_⟩
  decide

/-! `encode_attribute` (R111). -/

theorem encodeAttribute_eq_append (f b : ColorIndex) : encodeAttribute f b = b ++ f := setWidth_or_shiftLeft_eq_append f b

theorem toNat_encodeAttribute (f b : ColorIndex) : (encodeAttribute f b).toNat = 16 * b.toNat + f.toNat := by
  rw [encodeAttribute_eq_append]
  exact toNat_append_eq_add b f

@[simp] theorem fgOf_encodeAttribute (f b : ColorIndex) : fgOf (encodeAttribute f b) = f := by
  rw [encodeAttribute_eq_append]
  exact BitVec.extractLsb'_append_eq_right

@[simp] theorem bgOf_encodeAttribute (f b : ColorIndex) : bgOf (encodeAttribute f b) = b := by
  rw [encodeAttribute_eq_append]
  exact BitVec.extractLsb'_append_eq_left

@[simp] theorem encodeAttribute_parts (a : Byte) : encodeAttribute (fgOf a) (bgOf a) = a := by
  rw [encodeAttribute_eq_append]
  exact (BitVec.extractLsb'_append_extractLsb'_eq_extractLsb' rfl).trans BitVec.extractLsb'_eq_self

theorem encodeAttribute_inj {f b f' b' : ColorIndex} (h : encodeAttribute f b = encodeAttribute f' b') :
    f = f' ∧ b = b' :=
  ⟨by simpa using congrArg fgOf h, by simpa using congrArg bgOf h⟩

/-- Settles O27: the parts are read back, and every attribute is the attribute of its parts. -/
theorem attrPacksForegroundLowBackgroundHigh : Obligations.AttrPacksForegroundLowBackgroundHigh := by
  refine ⟨fun f b => ⟨rfl, fgOf_encodeAttribute f b, bgOf_encodeAttribute f b, toNat_encodeAttribute f b⟩,
    fun _ _ _ _ h => encodeAttribute_inj h, fun a => ⟨fgOf a, bgOf a, encodeAttribute_parts a⟩, ?_⟩
  decide

/-- Settles O28: the extractors are the fields by definition; the inversion laws are those of the two encoders. -/
theorem extractorsInvertTheCodec : Obligations.ExtractorsInvertTheCodec :=
  ⟨fun _ => ⟨rfl, rfl⟩, fun _ => ⟨rfl, rfl⟩, fun g a => ⟨glyphOf_encodeCell g a, attrOf_encodeCell g a⟩, encodeCell_parts,
    fun f b => ⟨fgOf_encodeAttribute f b, bgOf_encodeAttribute f b⟩, encodeAttribute_parts⟩

/-- Settles O29: BLANK is `encode_cell` of the space glyph, 0x20 at the binding of R8. -/
theorem blankIsSpaceInTheColour : Obligations.BlankIsSpaceInTheColour :=
  ⟨fun _ => rfl, rfl, rfl, rfl⟩

end Sys2Proof.Machine
end

section
/-! Text within a row (95_test_vectors.md S7): a printable that does not scroll (41_cursor_scroll_engine.md R123 a, b), and
the stores of a list of them, one after another from the cursor's cell on. -/

namespace Sys2Proof.Machine

/-- R123 a: before the last column the cursor only moves on. -/
theorem exec_wrch_within_row {b : Byte} {s : State} (hb : printable b) (hrest : s.AtRest) (hcol : s.col.toNat < 79) :
    exec (.wrch b) s = .next ((stored b s).withCol (s.col + 1#7)) := by
  obtain ⟨hnewline, hreturn⟩ := hb
  obtain ⟨hrow, hcol80, hmem⟩ := hrest
  calc exec (.wrch b) s
    _ = advancePrintable b s := advance_printable hnewline hreturn s
    _ = .next ((stored b s).withCol (s.col + 1#7)) := by
      rw [advancePrintable_of_rest b hrow hcol80 hmem, if_neg hcol.ne]

/-- R123 b: in the last column of any row but the last the cursor goes to the start of the next row. -/
theorem exec_wrch_at_row_end {b : Byte} {s : State} (hb : printable b) (hrest : s.AtRest) (hcol : s.col.toNat = 79)
    (hrow : s.row.toNat < 24) :
    exec (.wrch b) s = .next (((stored b s).withCol 0#7).withRow (s.row + 1#5)) := by
  obtain ⟨hnewline, hreturn⟩ := hb
  obtain ⟨hrow25, hcol80, hmem⟩ := hrest
  calc exec (.wrch b) s
    _ = advancePrintable b s := advance_printable hnewline hreturn s
    _ = lineFeed ((stored b s).withCol 0#7) := by rw [advancePrintable_of_rest b hrow25 hcol80 hmem, if_pos hcol]
    _ = .next (((stored b s).withCol 0#7).withRow (s.row + 1#5)) := lineFeed_of_lt hrow

/-- The stores of the text `bs` written from `s` on within one row, in order. -/
def textStores (bs : List Byte) (s : State) : List (Nat × GridCell) :=
  (List.range' s.target bs.length).zip (bs.map (encodeCell · s.color))

/-- The text stays in the cursor's row, and its last code does not wrap out of the last row, so nothing scrolls (R123). -/
def FitsInRow (bs : List Byte) (s : State) : Prop :=
  s.col.toNat + bs.length ≤ 80 ∧ (s.row.toNat < 24 ∨ s.col.toNat + bs.length < 80)

/-- Text that fits is stored from the cursor's cell on, without a scroll. -/
theorem wrbytes_stores_text {bs : List Byte} {s : State} (hrest : s.AtRest) (hbs : ∀ b ∈ bs, printable b)
    (hfits : FitsInRow bs s) :
    ∃ t, execAll (wrbytes bs) s = .next t ∧ t.scrolls = s.scrolls ∧ t.mem = replay s.mem (textStores bs s) := by
  induction bs generalizing s with
  | nil => exact ⟨s, rfl, rfl, rfl⟩
  | cons b bs ih =>
    obtain ⟨hb, hbs⟩ := List.forall_mem_cons.mp hbs
    obtain ⟨hlen, hlast⟩ := hfits
    rw [List.length_cons] at hlen hlast
    by_cases hcol : s.col.toNat < 79
    · have hexec := exec_wrch_within_row hb hrest hcol
      have hnext : (s.col + 1#7).toNat = s.col.toNat + 1 := toNat_col_succ (by omega)
      have htarget : ((stored b s).withCol (s.col + 1#7)).target = s.target + 1 := by
        simp only [State.target, State.withCol_row, State.withCol_col, stored_row, hnext, idx, Nat.add_assoc]
      have hfits : FitsInRow bs ((stored b s).withCol (s.col + 1#7)) := by
        simp only [FitsInRow, State.withCol_row, State.withCol_col, stored_row, hnext]
        omega
      obtain ⟨t, ht, hscrolls, hmem⟩ := ih (atRest_of_exec hrest hexec) hbs hfits
      refine ⟨t, andThen_eq_next.mpr ⟨_, hexec, ht⟩, hscrolls, ?_⟩
      rw [hmem, textStores, htarget]
      rfl
    · obtain rfl : bs = [] := List.length_eq_zero_iff.mp (by omega)
      have hexec := exec_wrch_at_row_end hb hrest (by omega) (by omega)
      exact ⟨_, andThen_eq_next.mpr ⟨_, hexec, rfl⟩, rfl, rfl⟩

/-- The text's cells hold its codes in the active colour, every other cell what it held. -/
theorem readCell_textStores (bs : List Byte) {s : State} (h : s.mem.wf) {i : Nat} (hi : i < 2000) :
    (replay s.mem (textStores bs s)).readCell i =
      if s.target ≤ i ∧ i < s.target + bs.length then (bs.map (encodeCell · s.color))[i - s.target]? else s.cell i := by
  simpa [textStores] using readCell_replay_zip (bs.map (encodeCell · s.color)) h s.target hi

/-- Settles O51: the grid is that of `wrbytes_stores_text`, read cell by cell (`readCell_textStores`). -/
theorem textWithinARowReadsBack : Obligations.TextWithinARowReadsBack := by
  intro bs s hrest hbs hlen hlast
  obtain ⟨t, ht, hscrolls, hmem⟩ := wrbytes_stores_text hrest hbs ⟨hlen, hlast⟩
  obtain ⟨hrow, -, hwf⟩ := hrest
  refine ⟨t, ht, hscrolls, fun k b hb => ⟨encodeCell b s.color, ?_, glyphOf_encodeCell _ _, attrOf_encodeCell _ _⟩,
    fun i hi => ?_⟩
  · obtain ⟨hk, -⟩ := List.getElem?_eq_some_iff.mp hb
    have hcell : idx s.row.toNat (s.col.toNat + k) = s.target + k := by simp only [State.target, idx, Nat.add_assoc]
    have hlt : s.target + k < 2000 := hcell ▸ idx_lt hrow (by omega)
    rw [hcell, State.cell, hmem, readCell_textStores bs hwf hlt, if_pos (by omega), Nat.add_sub_cancel_left,
      List.getElem?_map, hb, Option.map_some]
  · rw [State.cell, hmem]
    by_cases hlt : i < 2000
    · rw [readCell_textStores bs hwf hlt, if_neg (by omega)]
    · rw [State.cell, hwf.readCell_eq_none (by omega), (hwf.replay _).readCell_eq_none (by omega)]

end Sys2Proof.Machine
end

section
/-! CLAMP (41_cursor_scroll_engine.md R129): the nearest integer in range, held by a register wide enough for the range. -/

namespace Sys2Proof.Machine

section
variable {v lo hi : Int}

theorem clamp_of_lt (h : v < lo) : clamp v lo hi = lo := if_pos h

theorem clamp_of_gt (hrange : lo ≤ hi) (h : hi < v) : clamp v lo hi = hi := by
  rw [clamp, if_neg (by omega), if_pos h]

theorem clamp_of_mem (hlo : lo ≤ v) (hhi : v ≤ hi) : clamp v lo hi = v := by
  rw [clamp, if_neg (by omega), if_neg (by omega)]

end

/-- A register that can hold the bounds holds the clamped integer. -/
theorem toNat_ofInt_clamp {n : Nat} {hi : Int} (v : Int) (hnonneg : 0 ≤ hi) (hfits : hi < ((2 ^ n : Nat) : Int)) :
    ((BitVec.ofInt n (clamp v 0 hi)).toNat : Int) = clamp v 0 hi := by
  obtain ⟨hlo, hhi⟩ := clamp_mem hnonneg v
  rw [BitVec.toNat_ofInt, Int.emod_eq_of_lt hlo (hhi.trans_lt hfits), Int.toNat_of_nonneg hlo]

theorem toNat_clampRow (v : Int) : ((clampRow v).toNat : Int) = clamp v 0 24 :=
  toNat_ofInt_clamp v (by decide) (by decide)

theorem toNat_clampCol (v : Int) : ((clampCol v).toNat : Int) = clamp v 0 79 :=
  toNat_ofInt_clamp v (by decide) (by decide)

/-- Settles O33: each register holds the clamped integer (`toNat_clampRow`, `toNat_clampCol`), which is `clamp`'s by cases. -/
theorem clampIsNearestInRange : Obligations.ClampIsNearestInRange := by
  refine ⟨fun v => ⟨fun h => ?_, fun h => ?_, fun hlo hhi => ?_⟩, fun v => ⟨fun h => ?_, fun h => ?_, fun hlo hhi => ?_⟩⟩
  · exact Int.ofNat_inj.mp ((toNat_clampRow v).trans (clamp_of_lt h))
  · exact Int.ofNat_inj.mp ((toNat_clampRow v).trans (clamp_of_gt (by decide) h))
  · exact (toNat_clampRow v).trans (clamp_of_mem hlo hhi)
  · exact Int.ofNat_inj.mp ((toNat_clampCol v).trans (clamp_of_lt h))
  · exact Int.ofNat_inj.mp ((toNat_clampCol v).trans (clamp_of_gt (by decide) h))
  · exact (toNat_clampCol v).trans (clamp_of_mem hlo hhi)

end Sys2Proof.Machine
end

section
/-! SCROLL (41_cursor_scroll_engine.md R126): its net effect with its trace, and which commands can scroll. -/

namespace Sys2Proof.Machine

/-- A pair of consecutive indices with values: the value stands at the index's place. -/
theorem getElem?_of_mem_zip_range' {α : Type} {vs : List α} {i : Nat} {p : Nat × α}
    (h : p ∈ (List.range' i vs.length).zip vs) : vs[p.1 - i]? = some p.2 := by
  obtain ⟨k, hk, rfl⟩ := List.mem_iff_getElem.mp h
  simp

/-- SCROLL reads rows 1 to 24, each cell at its old value. -/
theorem readsOf_scrollLog_agree {g : Memory} (h : g.wf) (c : Byte) {p : Nat × GridCell}
    (hp : p ∈ readsOf (scrollLog g c)) : g.readCell p.1 = some p.2 := by
  rw [readsOf_scrollLog h, ← length_keptCells h] at hp
  have hindex : 80 + (p.1 - 80) = p.1 := by
    obtain ⟨hmem, -⟩ := List.of_mem_zip hp
    have := (List.mem_range'_1.mp hmem).1
    omega
  rw [← hindex, ← h.getElem?_toCells, ← List.getElem?_drop]
  exact getElem?_of_mem_zip_range' hp

/-- SCROLL stores in each cell the value the cell ends with. -/
theorem storesOf_scrollLog_agree {g : Memory} (h : g.wf) (c : Byte) {p : Nat × GridCell}
    (hp : p ∈ storesOf (scrollLog g c)) : (scrolledMem g c).readCell p.1 = some p.2 := by
  have hlen : 2000 = (keptCells g ++ List.replicate 80 (blank c)).length := by simp [length_keptCells h]
  rw [storesOf_scrollLog_eq_zip h, hlen] at hp
  rw [scrolledMem, Memory.readCell_ofCells]
  exact getElem?_of_mem_zip_range' hp

theorem map_fst_storesOf_scrollLog {g : Memory} (h : g.wf) (c : Byte) :
    (storesOf (scrollLog g c)).map Prod.fst = List.range 2000 := by
  rw [storesOf_scrollLog_eq_zip h, List.map_fst_zip (by simp [length_keptCells h]), List.range_eq_range']

theorem map_fst_readsOf_scrollLog {g : Memory} (h : g.wf) (c : Byte) :
    (readsOf (scrollLog g c)).map Prod.fst = (List.range 1920).map (· + 80) := by
  rw [readsOf_scrollLog h, List.map_fst_zip (by simp [length_keptCells h]), List.range'_eq_map_range]
  simp only [Nat.add_comm]

/-- A state with the grid, the log and the scroll count that SCROLL leaves has SCROLL's effect, wherever its cursor is. -/
theorem scrollEffect_of_scrolledMem {c : Byte} {g : Memory} {before : List CellAccess} {s t : State} (h : g.wf)
    (hmem : t.mem = scrolledMem g c) (hscrolls : t.scrolls = s.scrolls + 1)
    (hlog : t.log = s.log ++ before ++ scrollLog g c) : ScrollEffect c g before s t := by
  have hcell (i : Nat) : t.cell i = (scrolledMem g c).readCell i := by rw [State.cell, hmem]
  refine ⟨fun i hi => ?_, fun i hlo hhi => ?_, hscrolls, scrollLog g c, hlog, map_fst_storesOf_scrollLog h c,
    fun p hp => ?_, map_fst_readsOf_scrollLog h c, fun p hp => readsOf_scrollLog_agree h c hp⟩
  · rw [hcell, readCell_scrolledMem h, if_pos hi]
  · rw [hcell, readCell_scrolledMem h, if_neg (Nat.not_lt.mpr hlo), if_pos hhi]
  · rw [hcell, storesOf_scrollLog_agree h c hp]

/-- From `s` to `t` there was no scroll, or one and the cursor had started on the last row. -/
def ScrollsOnlyFromLastRow (s t : State) : Prop :=
  t.scrolls = s.scrolls ∨ (t.scrolls = s.scrolls + 1 ∧ s.row = 24#5)

theorem lineFeed_scrolls {s t : State} (h : lineFeed s = .next t) : ScrollsOnlyFromLastRow s t := by
  rcases lineFeed_eq_next h with ⟨-, rfl⟩ | ⟨hfull, -, rfl⟩
  · exact .inl rfl
  · exact .inr ⟨rfl, by bv_omega⟩

theorem advancePrintable_scrolls {ch : Byte} {s t : State} (h : advancePrintable ch s = .next t) :
    ScrollsOnlyFromLastRow s t := by
  obtain ⟨-, ⟨-, rfl⟩ | ⟨-, hfeed⟩⟩ := advancePrintable_eq_next h
  · exact .inl rfl
  · exact lineFeed_scrolls (s := (stored ch s).withCol 0#7) hfeed

theorem advance_scrolls {ch : Byte} {s t : State} (h : advance ch s = .next t) : ScrollsOnlyFromLastRow s t := by
  unfold advance at h
  cases hclass : classify ch with
  | newline => rw [hclass] at h; exact lineFeed_scrolls (s := s.withCol 0#7) h
  | carriageReturn => rw [hclass] at h; cases h; exact .inl rfl
  | printable => rw [hclass] at h; exact advancePrintable_scrolls h

/-- Settles O30: SCROLL answers `scrolled`, whose grid and log have the effect; of the commands only ADVANCE scrolls. -/
theorem scrollShiftsUpAndBlanksTheLastRow : Obligations.ScrollShiftsUpAndBlanksTheLastRow := by
  refine ⟨fun s hwf => ⟨scrolled s, scroll_of_wf hwf, rfl, rfl, rfl, ⟨rfl, rfl, rfl⟩, wf_scrolledMem hwf _, ?_⟩,
    fun i s t h => ?_⟩
  · exact scrollEffect_of_scrolledMem hwf rfl rfl (by simp)
  · cases i with
    | init => cases h; exact .inl rfl
    | clear => cases h; exact .inl rfl
    | setcolor attr => cases h; exact .inl rfl
    | setcolorfb fg bg => cases h; exact .inl rfl
    | wrch ch => exact (advance_scrolls h).imp id fun ⟨hscrolls, hrow⟩ => ⟨hscrolls, hrow, ch, 0#8, .inl rfl⟩
    | wrchc ch attr =>
      exact (advance_scrolls (s := s.withColor attr) h).imp id fun ⟨hscrolls, hrow⟩ => ⟨hscrolls, hrow, ch, attr, .inr rfl⟩
    | setcursor row col => cases h; exact .inl rfl

end Sys2Proof.Machine
end

section
/-! The loops of the spec's pseudocode (41_cursor_scroll_engine.md R126, R128). An access is a change of the grid and an entry
of the log, so a loop that performs the accesses `l` leaves the state `s.performed l`; the net effects are of that form too
(`replaysTo_fillLog`, `replaysTo_scrollLog`). -/

namespace Sys2Proof.Machine

/-- The state after the accesses `l`: their stores replayed over the grid, all of them logged. -/
def State.performed (s : State) (l : List CellAccess) : State := (s.withMem (replay s.mem (storesOf l))).logged l

section
variable (s : State) (l l' : List CellAccess)

theorem State.performed_nil : s.performed [] = s := by
  simp [State.performed, State.logged, State.withMem, storesOf, replay]

theorem State.performed_append : (s.performed l).performed l' = s.performed (l ++ l') := by
  simp [State.performed, State.logged, State.withMem, replay_append]

end

theorem gridWrite_eq_performed {s : State} (h : s.mem.wf) {i : Nat} (hi : i < 2000) (v : GridCell) :
    gridWrite i v s = .next (s.performed [.write i v]) :=
  gridWrite_of_wf h hi v

theorem gridCopy_eq_performed {s : State} (h : s.mem.wf) {i j : Nat} {v : GridCell} (hv : s.mem.readCell i = some v)
    (hj : j < 2000) : gridCopy i j s = .next (s.performed [.read i v, .write j v]) :=
  gridCopy_of_wf h hv hj

/-! Loops as such. -/

theorem forCells_succ (f : Nat → State → Result) (i n : Nat) (s : State) :
    forCells f i (n + 1) s = andThen (f i s) (forCells f (i + 1) n) := rfl

/-- A loop cut in two. -/
theorem forCells_add (f : Nat → State → Result) (i m n : Nat) (s : State) :
    forCells f i (m + n) s = andThen (forCells f i m s) (forCells f (i + m) n) := by
  induction m generalizing i s with
  | zero => simp [forCells]
  | succ m ih =>
    have hnext : i + 1 + m = i + (m + 1) := by omega
    rw [Nat.succ_add, forCells_succ, forCells_succ, andThen_assoc]
    exact congrArg _ (funext fun u => by rw [ih, hnext])

/-- A loop with its counter moved by a fixed amount. -/
theorem forCells_offset (f : Nat → State → Result) (k i n : Nat) (s : State) :
    forCells (fun j => f (k + j)) i n s = forCells f (k + i) n s := by
  induction n generalizing i s with
  | zero => rfl
  | succ n ih => exact congrArg (andThen (f (k + i) s)) (funext fun u => ih (i + 1) u)

/-- The columns of the rows, one row after another, are the cells in ascending index (R52). -/
theorem forCells_rows (f : Nat → State → Result) (r n : Nat) (s : State) :
    forCells (fun r => forCells (fun c => f (idx r c)) 0 80) r n s = forCells f (80 * r) (80 * n) s := by
  induction n generalizing r s with
  | zero => rfl
  | succ n ih =>
    have hrow (u : State) : forCells (fun c => f (idx r c)) 0 80 u = forCells f (80 * r) 80 u :=
      forCells_offset f (80 * r) 0 80 u
    have hcells : 80 * (n + 1) = 80 + 80 * n := by omega
    rw [forCells_succ, hrow, hcells, forCells_add]
    exact congrArg _ (funext fun u => ih (r + 1) u)

/-! The two loops. -/

/-- Storing `v` in `n` cells from cell `i` on. -/
theorem forCells_gridWrite (v : GridCell) (i n : Nat) {s : State} (h : s.mem.wf) (hn : i + n ≤ 2000) :
    forCells (fun j => gridWrite j v) i n s = .next (s.performed (fillLog v i n)) := by
  induction n generalizing i s with
  | zero => rw [fillLog, State.performed_nil]; rfl
  | succ n ih =>
    rw [forCells_succ, gridWrite_eq_performed h (by omega), andThen_next, ih (i + 1) (h.setCell i v) (by omega),
      State.performed_append]
    rfl

/-- Copying `vs`, the cells from `i + 80` on, to the cells from `i` on: a copy's cell has not been stored before it. -/
theorem forCells_gridCopy (vs : List GridCell) (i : Nat) {s : State} (h : s.mem.wf) (hn : i + vs.length ≤ 2000)
    (hvs : ∀ k, k < vs.length → s.mem.readCell (i + 80 + k) = vs[k]?) :
    forCells (fun j => gridCopy (j + 80) j) i vs.length s = .next (s.performed (copyLog i vs)) := by
  induction vs generalizing i s with
  | nil => rw [copyLog, State.performed_nil]; rfl
  | cons v vs ih =>
    rw [List.length_cons] at hn hvs
    have hrest (k : Nat) (hk : k < vs.length) : (s.mem.setCell i v).readCell (i + 1 + 80 + k) = vs[k]? := by
      have hcell : i + 1 + 80 + k = i + 80 + (k + 1) := by omega
      rw [Memory.readCell_setCell, if_neg (by omega), hcell, hvs (k + 1) (Nat.succ_lt_succ hk), List.getElem?_cons_succ]
    rw [List.length_cons, forCells_succ, gridCopy_eq_performed h (hvs 0 (Nat.succ_pos _)) (by omega), andThen_next,
      ih (i + 1) (h.setCell i v) (by omega) hrest, State.performed_append]
    rfl

theorem performed_fillLog (v : GridCell) {s : State} (h : s.mem.wf) : s.performed (fillLog v 0 2000) = fillGrid v s := by
  obtain ⟨hreplay, -⟩ := replaysTo_fillLog v h
  rw [State.performed, hreplay, fillGrid]

theorem performed_scrollLog {s : State} (h : s.mem.wf) :
    (s.performed (scrollLog s.mem s.color)).countScroll = scrolled s := by
  obtain ⟨hreplay, -⟩ := replaysTo_scrollLog h s.color
  rw [State.performed, hreplay, scrolled]

/-- R126's first loop nest: rows 1 to 24 copied up. -/
theorem scrollLoop_copies {s : State} (h : s.mem.wf) :
    forCells (fun r => forCells (fun c => gridCopy (idx (r + 1) c) (idx r c)) 0 80) 0 24 s =
      .next (s.performed (copyLog 0 (keptCells s.mem))) := by
  have hbelow (r c : Nat) : idx (r + 1) c = idx r c + 80 := by simp only [idx, Config.columns]; omega
  simp only [hbelow]
  rw [forCells_rows (fun j => gridCopy (j + 80) j) 0 24 s]
  have hlen : 80 * 24 = (keptCells s.mem).length := by rw [length_keptCells h]
  rw [hlen]
  refine forCells_gridCopy _ 0 h (by rw [length_keptCells h]; decide) fun k _ => ?_
  rw [keptCells, List.getElem?_drop, h.getElem?_toCells, Nat.zero_add]

/-- R126's second loop: the last row blanked. -/
theorem scrollLoop_blanks (v : GridCell) {s : State} (h : s.mem.wf) :
    forCells (fun c => gridWrite (idx 24 c) v) 0 80 s = .next (s.performed (fillLog v 1920 80)) :=
  (forCells_offset (fun j => gridWrite j v) 1920 0 80 s).trans (forCells_gridWrite v 1920 80 h (by decide))

/-- Settles O31: the loops perform the accesses of `scrollLog` one by one, and these replay to the grid of the net effect. -/
theorem scrollLoopsEqualNetEffect : Obligations.ScrollLoopsEqualNetEffect := by
  intro s h
  rw [scroll_of_wf h, ← performed_scrollLog h, scrollLog, ← State.performed_append]
  exact andThen_eq_next.mpr ⟨_, scrollLoop_copies h, andThen_eq_next.mpr ⟨_, scrollLoop_blanks _ (h.replay _), rfl⟩⟩

theorem fillEffect_fillGrid (v : GridCell) (s : State) : FillEffect v s (fillGrid v s) := by
  refine ⟨fun i hi => ?_, rfl, fillLog v 0 2000, rfl, ?_, readsOf_fillLog v 0 2000⟩
  · rw [State.cell, fillGrid_readCell, if_pos hi]
  · rw [storesOf_fillLog, List.range_eq_range']

/-- Settles O32: the loop performs the stores of `fillLog`, which replay to the filled grid. -/
theorem fillLoopEqualsNetEffect : Obligations.FillLoopEqualsNetEffect := by
  intro v s h
  have hloop : fillGridLoop v s = .next (fillGrid v s) := by
    rw [← performed_fillLog v h]
    exact forCells_gridWrite v 0 2000 h (by decide)
  exact ⟨_, hloop, rfl, fillEffect_fillGrid v s, rfl, rfl, rfl, ⟨rfl, rfl, rfl⟩, fillGrid_wf v s⟩

end Sys2Proof.Machine
end

section
/-! WRCH by the class of its character (41_cursor_scroll_engine.md R121 to R123). -/

namespace Sys2Proof.Machine

/-- Above the last row a newline only moves the cursor (R121, R124). -/
theorem newlineEffect_of_lt {s : State} (hrow : s.row.toNat < 24) :
    NewlineEffect s ((s.withCol 0#7).withRow (s.row + 1#5)) :=
  ⟨rfl, rfl, ⟨rfl, rfl, rfl⟩, fun _ => ⟨toNat_row_succ (by omega), fun _ => rfl, rfl, rfl⟩, fun hlast => by omega⟩

/-- On the last row a newline is one SCROLL. -/
theorem newlineEffect_of_last {s : State} (hrow : s.row.toNat = 24) (h : s.mem.wf) :
    NewlineEffect s ((scrolled (s.withCol 0#7)).withRow 24#5) :=
  ⟨rfl, rfl, ⟨rfl, rfl, rfl⟩, fun hlt => by omega,
    fun _ => ⟨rfl, scrollEffect_of_scrolledMem h rfl rfl (by simp)⟩⟩

/-- Settles O40: a newline is LINEFEED at column 0, with or without a scroll. -/
theorem newlineFeedsALine : Obligations.NewlineFeedsALine := by
  intro s hrest
  obtain ⟨(hrow : s.row.toNat < 25), -, hmem⟩ := hrest
  by_cases hlast : s.row.toNat = 24
  · exact ⟨_, lineFeed_of_last (s := s.withCol 0#7) hlast hmem, newlineEffect_of_last hlast hmem⟩
  · have hlt : s.row.toNat < 24 := by omega
    exact ⟨_, lineFeed_of_lt (s := s.withCol 0#7) hlt, newlineEffect_of_lt hlt⟩

/-- Settles O41: a carriage return answers `withCol`, which changes `col` alone. -/
theorem carriageReturnOnlyHomesTheColumn : Obligations.CarriageReturnOnlyHomesTheColumn :=
  fun s => ⟨_, advance_return s, rfl, rfl, rfl, ⟨rfl, rfl, rfl⟩, fun _ => rfl, rfl, rfl⟩

/-- R123 c: on the last cell the character is stored, then the grid scrolls. -/
theorem exec_wrch_at_last_cell {b : Byte} {s : State} (hb : printable b) (hrest : s.AtRest) (hcol : s.col.toNat = 79)
    (hrow : s.row.toNat = 24) :
    exec (.wrch b) s = .next ((scrolled ((stored b s).withCol 0#7)).withRow 24#5) := by
  obtain ⟨hnewline, hreturn⟩ := hb
  obtain ⟨hrow25, hcol80, hmem⟩ := hrest
  calc exec (.wrch b) s
    _ = advancePrintable b s := advance_printable hnewline hreturn s
    _ = lineFeed ((stored b s).withCol 0#7) := by rw [advancePrintable_of_rest b hrow25 hcol80 hmem, if_pos hcol]
    _ = .next ((scrolled ((stored b s).withCol 0#7)).withRow 24#5) := lineFeed_of_last hrow (hmem.setCell _ _)

/-- In a whole grid a stored cell reads back. -/
theorem Memory.wf.readCell_setCell_self {m : Memory} (h : m.wf) {i : Nat} (hi : i < 2000) (v : GridCell) :
    (m.setCell i v).readCell i = some v := by
  obtain ⟨w, hw⟩ := h.readCell_eq_some hi
  rw [Memory.readCell_setCell, if_pos rfl, hw, Option.map_some]

/-- Where a cursor at rest stands, as R123's corner cases (a), (b), (c) divide the grid. -/
theorem State.AtRest.cursor_cases {s : State} (h : s.AtRest) :
    s.col.toNat < 79 ∨ (s.col.toNat = 79 ∧ s.row.toNat < 24) ∨ (s.col.toNat = 79 ∧ s.row.toNat = 24) := by
  obtain ⟨(hrow : s.row.toNat < 25), (hcol : s.col.toNat < 80), -⟩ := h
  omega

theorem State.AtRest.target_lt {s : State} (h : s.AtRest) : s.target < 2000 :=
  let ⟨hrow, hcol, _⟩ := h
  idx_lt hrow hcol

/-- STORE_CELL's effect, whatever becomes of the cursor afterwards (R125). -/
theorem storeEffect_of_stored (ch : Byte) {s t : State} (hrest : s.AtRest) (hmem : t.mem = (stored ch s).mem)
    (hscrolls : t.scrolls = s.scrolls) (hlog : t.log = (stored ch s).log) : StoreEffect ch s t := by
  have htarget := hrest.target_lt
  obtain ⟨-, -, hwf⟩ := hrest
  refine ⟨?_, fun a hglyph hattr => ?_, hscrolls, hlog⟩
  · rw [State.cell, hmem]
    exact hwf.readCell_setCell_self htarget _
  · rw [hmem]
    exact Memory.read_setCell_of_ne _ _ _ hglyph hattr

theorem target_at_last_cell {s : State} (hcol : s.col.toNat = 79) (hrow : s.row.toNat = 24) : s.target = 1999 := by
  rw [State.target, hcol, hrow]; rfl

theorem printableEffect_within_row (ch : Byte) {s : State} (hrest : s.AtRest) (hcol : s.col.toNat < 79) :
    PrintableEffect ch s ((stored ch s).withCol (s.col + 1#7)) :=
  ⟨rfl, ⟨rfl, rfl, rfl⟩,
    fun _ => ⟨toNat_col_succ (by omega), rfl, storeEffect_of_stored ch hrest rfl rfl rfl⟩,
    fun h79 => by omega, fun h79 => by omega⟩

theorem printableEffect_at_row_end (ch : Byte) {s : State} (hrest : s.AtRest) (hcol : s.col.toNat = 79)
    (hrow : s.row.toNat < 24) : PrintableEffect ch s (((stored ch s).withCol 0#7).withRow (s.row + 1#5)) :=
  ⟨rfl, ⟨rfl, rfl, rfl⟩, fun hlt => by omega,
    fun _ _ => ⟨rfl, toNat_row_succ (by omega), storeEffect_of_stored ch hrest rfl rfl rfl⟩,
    fun _ hlast => by omega⟩

/-- The stored character is moved up from cell 1999 to cell 1919. -/
theorem printableEffect_at_last_cell (ch : Byte) {s : State} (hrest : s.AtRest) (hcol : s.col.toNat = 79)
    (hrow : s.row.toNat = 24) : PrintableEffect ch s ((scrolled ((stored ch s).withCol 0#7)).withRow 24#5) := by
  obtain ⟨-, -, h⟩ := hrest
  have htarget := target_at_last_cell hcol hrow
  have hstored : (stored ch s).mem = s.mem.setCell 1999 (encodeCell ch s.color) := by rw [← htarget]; rfl
  have hwf : (stored ch s).mem.wf := h.setCell _ _
  have hchar : (scrolledMem (stored ch s).mem s.color).readCell 1919 = some (encodeCell ch s.color) := by
    rw [readCell_scrolledMem hwf, if_pos (by decide), hstored, h.readCell_setCell_self (by decide)]
  refine ⟨rfl, ⟨rfl, rfl, rfl⟩, fun hlt => by omega, fun _ hlt => by omega, fun _ _ => ⟨rfl, rfl, hchar, ?_⟩⟩
  rw [← hstored, ← htarget]
  exact scrollEffect_of_scrolledMem hwf rfl rfl rfl

/-- Settles O42: the three corner cases of R123, by the cursor's column and row. -/
theorem printableStoresThenAdvances : Obligations.PrintableStoresThenAdvances := by
  intro ch s hrest hch
  rcases hrest.cursor_cases with hcol | ⟨hcol, hrow⟩ | ⟨hcol, hrow⟩
  · exact ⟨_, exec_wrch_within_row hch hrest hcol, printableEffect_within_row ch hrest hcol⟩
  · exact ⟨_, exec_wrch_at_row_end hch hrest hcol hrow, printableEffect_at_row_end ch hrest hcol hrow⟩
  · exact ⟨_, exec_wrch_at_last_cell hch hrest hcol hrow, printableEffect_at_last_cell ch hrest hcol hrow⟩

end Sys2Proof.Machine
end

section
/-! How often printable text scrolls (41_cursor_scroll_engine.md R131). The cursor's cell counts the text modulo the scrolls:
every character moves it on by one, and a scroll sets it back by one row. -/

namespace Sys2Proof.Machine

theorem State.target_eq (s : State) : s.target = 80 * s.row.toNat + s.col.toNat := rfl

/-- `t` is where `n` printable characters leave a machine that started from `s`. -/
def MovedOn (n : Nat) (s t : State) : Prop :=
  t.scrolls = s.scrolls + ((s.target + n) / 80 - 24) ∧ t.row.toNat = min ((s.target + n) / 80) 24 ∧
    t.col.toNat = (s.target + n) % 80

theorem movedOn_zero {s : State} (h : s.AtRest) : MovedOn 0 s s := by
  obtain ⟨(hrow : s.row.toNat < 25), (hcol : s.col.toNat < 80), -⟩ := h
  rw [MovedOn, s.target_eq]
  omega

/-- One printable character moves the cursor's cell on, or scrolls and brings the cursor to the start of the last row. -/
theorem exec_wrch_moves {b : Byte} {s : State} (hb : printable b) (hrest : s.AtRest) :
    ∃ t, exec (.wrch b) s = .next t ∧
      ((t.target = s.target + 1 ∧ t.scrolls = s.scrolls) ∨
        (s.target = 1999 ∧ t.target = 1920 ∧ t.scrolls = s.scrolls + 1)) := by
  obtain ⟨t, ht, -, -, hwithin, hend, hlast⟩ := printableStoresThenAdvances b s hrest hb
  refine ⟨t, ht, ?_⟩
  simp only [State.target_eq]
  rcases hrest.cursor_cases with hcol | ⟨hcol, hrow⟩ | ⟨hcol, hrow⟩
  · obtain ⟨htcol, htrow, -, -, hscrolls, -⟩ := hwithin hcol
    rw [htcol, htrow]
    omega
  · obtain ⟨htcol, htrow, -, -, hscrolls, -⟩ := hend hcol hrow
    rw [htcol, htrow, BitVec.toNat_zero]
    omega
  · obtain ⟨htcol, htrow, -, -, -, hscrolls, -⟩ := hlast hcol hrow
    rw [htcol, htrow, BitVec.toNat_zero]
    omega

/-- Text from any cursor at rest, by induction on its characters. -/
theorem wrbytes_movesOn {bs : List Byte} {s : State} (hrest : s.AtRest) (hbs : ∀ b ∈ bs, printable b) :
    ∃ t, execAll (wrbytes bs) s = .next t ∧ MovedOn bs.length s t := by
  induction bs generalizing s with
  | nil => exact ⟨s, rfl, movedOn_zero hrest⟩
  | cons b bs ih =>
    obtain ⟨hb, hbs⟩ := List.forall_mem_cons.mp hbs
    obtain ⟨u, hu, hmoved⟩ := exec_wrch_moves hb hrest
    obtain ⟨t, ht, hscrolls, hrow, hcol⟩ := ih (atRest_of_exec hrest hu) hbs
    refine ⟨t, andThen_eq_next.mpr ⟨u, hu, ht⟩, ?_⟩
    rw [MovedOn, List.length_cons]
    omega

/-- Settles O34: from cursor (0,0) the text's length is the cursor's cell (`wrbytes_movesOn`). -/
theorem scrollCountOfPrintableText : Obligations.ScrollCountOfPrintableText := by
  refine ⟨fun ch s t h => ?_, fun s bs hrest hrow hcol hbs => ?_⟩
  · rcases advance_scrolls h with hscrolls | ⟨hscrolls, -⟩ <;> omega
  · have htarget : s.target = 0 := by rw [s.target_eq, hrow, hcol]
    obtain ⟨t, ht, hmoved⟩ := wrbytes_movesOn hrest hbs
    rw [MovedOn, htarget, Nat.zero_add] at hmoved
    exact ⟨t, ht, hmoved⟩

end Sys2Proof.Machine
end

section
/-! The surface commands as state updates (42_surface_commands.md R141 to R147). INIT is CLEAR in the default colour, so one
state, `cleared`, describes both. -/

namespace Sys2Proof.Machine

/-- The state CLEAR leaves: every cell blank in the active colour, the cursor at (0,0). -/
def cleared (s : State) : State := ((fillGrid (blank s.color) s).withRow 0#5).withCol 0#7

section
variable (s : State)

@[simp] theorem cleared_row : (cleared s).row = 0#5 := rfl
@[simp] theorem cleared_col : (cleared s).col = 0#7 := rfl
@[simp] theorem cleared_color : (cleared s).color = s.color := rfl
@[simp] theorem cleared_mem : (cleared s).mem = Memory.ofCells (List.replicate 2000 (blank s.color)) := rfl
@[simp] theorem cleared_host : (cleared s).host = s.host := rfl
@[simp] theorem cleared_observed : (cleared s).observed = s.observed := rfl
@[simp] theorem cleared_log : (cleared s).log = s.log ++ fillLog (blank s.color) 0 2000 := rfl
@[simp] theorem cleared_scrolls : (cleared s).scrolls = s.scrolls := rfl
@[simp] theorem cleared_resets : (cleared s).resets = s.resets := rfl

theorem fillGrid_withRow (v : GridCell) (r : BitVec 5) : fillGrid v (s.withRow r) = (fillGrid v s).withRow r := rfl
theorem fillGrid_withCol (v : GridCell) (c : BitVec 7) : fillGrid v (s.withCol c) = (fillGrid v s).withCol c := rfl

theorem exec_clear : exec .clear s = .next (cleared s) := rfl

/-- INIT sets all three registers before the fill, CLEAR homes the cursor after it: a fill moves no cursor. -/
theorem exec_init : exec .init s = .next (cleared (s.withColor defaultAttr)) := by
  rw [cleared, ← fillGrid_withRow, ← fillGrid_withCol, State.withColor_color]
  rfl

theorem exec_setcolor (attr : Byte) : exec (.setcolor attr) s = .next (s.withColor attr) := rfl
theorem exec_setcolorfb (fg bg : ColorIndex) :
    exec (.setcolorfb fg bg) s = exec (.setcolor (encodeAttribute fg bg)) s := rfl
theorem exec_wrchc (ch attr : Byte) : exec (.wrchc ch attr) s = exec (.wrch ch) (s.withColor attr) := rfl
theorem exec_setcursor (r c : Int) :
    exec (.setcursor r c) s = .next ((s.withRow (clampRow r)).withCol (clampCol c)) := rfl

theorem wf_cleared : (cleared s).mem.wf := fillGrid_wf (blank s.color) s

theorem fillEffect_cleared : FillEffect (blank s.color) s (cleared s) := fillEffect_fillGrid (blank s.color) s

end

/-- Of the state before it, CLEAR's end state in `S` depends on the colour alone. -/
theorem sameS_cleared {s s' : State} (h : s'.color = s.color) : SameS (cleared s) (cleared s') := by
  simp only [SameS, cleared_row, cleared_col, cleared_color, cleared_mem, h, and_self]

/-- Settles O35: INIT is `cleared` in the default colour, so that no part of the old `S` is left. -/
theorem initEndsInTheDefaultScreen : Obligations.InitEndsInTheDefaultScreen := by
  intro s
  have hfill : FillEffect (blank defaultAttr) s (cleared (s.withColor defaultAttr)) := fillEffect_cleared (s.withColor _)
  have hblank : blank defaultAttr = 0x0720#16 := rfl
  rw [hblank] at hfill
  refine ⟨_, exec_init s, cleared_row _, cleared_col _, cleared_color _, wf_cleared _, hfill,
    ⟨cleared_host _, cleared_observed _, cleared_resets _⟩, fun s' t' h => ?_⟩
  cases h
  exact sameS_cleared rfl

/-- Settles O36: CLEAR is `cleared`, and a blank of a colour is the space glyph in it. -/
theorem clearFillsWithTheActiveColour : Obligations.ClearFillsWithTheActiveColour :=
  fun s => ⟨_, exec_clear s, cleared_row s, cleared_col s, cleared_color s, wf_cleared s, fillEffect_cleared s,
    cleared_host s, cleared_observed s, cleared_resets s⟩

/-- Settles O37: `withColor` changes `color` alone. -/
theorem setcolorWritesTheColourOnly : Obligations.SetcolorWritesTheColourOnly :=
  fun attr s => exec_setcolor s attr

/-- Settles O38: the packed attribute is `encodeAttribute`'s. -/
theorem setcolorfbPacksTheColour : Obligations.SetcolorfbPacksTheColour :=
  fun fg bg s => ⟨(exec_setcolorfb s fg bg).trans (exec_setcolor s _), exec_setcolorfb s fg bg⟩

theorem clamp_eq_max_min {lo hi : Int} (h : lo ≤ hi) (v : Int) : clamp v lo hi = max lo (min v hi) := by
  unfold clamp
  split_ifs <;> omega

/-- Settles O39: each register holds its clamped integer (`toNat_clampRow`, `toNat_clampCol`). -/
theorem setcursorClampsAndMovesOnly : Obligations.SetcursorClampsAndMovesOnly := by
  refine fun r c s => ⟨clampRow r, clampCol c, exec_setcursor s r c, ?_, ?_⟩
  · rw [toNat_clampRow, clamp_eq_max_min (by decide)]
  · rw [toNat_clampCol, clamp_eq_max_min (by decide)]

end Sys2Proof.Machine
end

section
/-! The algebra of the surface commands (42_surface_commands.md R148 a to e), on command lists. -/

namespace Sys2Proof.Machine

theorem execAll_append (is js : List Instr) (s : State) :
    execAll (is ++ js) s = andThen (execAll is s) (execAll js) := by
  induction is generalizing s with
  | nil => rfl
  | cons i is ih =>
    calc execAll (i :: is ++ js) s
      _ = andThen (exec i s) fun t => andThen (execAll is t) (execAll js) :=
          congrArg (andThen (exec i s)) (funext ih)
      _ = andThen (execAll (i :: is) s) (execAll js) := (andThen_assoc _ _ _).symm

theorem execAll_singleton (i : Instr) (s : State) : execAll [i] s = exec i s := by
  change andThen (exec i s) Host.Outcome.next = exec i s
  cases exec i s <;> rfl

/-- Where a list answers a next state, one more command runs from there. -/
theorem execAll_concat {is : List Instr} {s t : State} (h : execAll is s = .next t) (j : Instr) :
    execAll (is ++ [j]) s = exec j t := by
  rw [execAll_append, h, andThen_next, execAll_singleton]

theorem execAll_pair {i j : Instr} {s t : State} (h : exec i s = .next t) : execAll [i, j] s = exec j t :=
  execAll_concat ((execAll_singleton i s).trans h) j

/-- From rest every command list completes, at rest again. -/
theorem execAll_completes (is : List Instr) {s : State} (h : s.AtRest) : CompletesAtRest (execAll is s) := by
  induction is generalizing s with
  | nil => exact completesAtRest_next h
  | cons i is ih =>
    obtain ⟨u, hu, hurest⟩ := exec_completes i h
    obtain ⟨t, ht, htrest⟩ := ih hurest
    exact ⟨t, andThen_eq_next.mpr ⟨u, hu, ht⟩, htrest⟩

/-- Settles O44: what the second run writes to a register or a cell, the first one has left there. -/
theorem idempotentCommands : Obligations.IdempotentCommands := by
  rintro i s (rfl | rfl | ⟨a, rfl⟩ | ⟨f, b, rfl⟩ | ⟨r, c, rfl⟩)
  · exact ⟨_, _, exec_init _, exec_init _, sameS_cleared rfl⟩
  · exact ⟨_, _, exec_clear _, exec_clear _, sameS_cleared rfl⟩
  · exact ⟨_, _, exec_setcolor _ _, exec_setcolor _ _, rfl, rfl, rfl, rfl⟩
  · exact ⟨_, _, exec_setcolorfb _ _ _, exec_setcolorfb _ _ _, rfl, rfl, rfl, rfl⟩
  · exact ⟨_, _, exec_setcursor _ _ _, exec_setcursor _ _ _, rfl, rfl, rfl, rfl⟩

/-- Settles O45: from rest the list completes (`execAll_completes`), and INIT's end state does not depend on where it starts. -/
theorem absorptionLaws : Obligations.AbsorptionLaws := by
  refine ⟨fun is s hrest => ?_, fun a b s => ?_, fun r c r' c' s => ?_⟩
  · obtain ⟨t, ht, -⟩ := execAll_completes is hrest
    exact ⟨_, _, (execAll_concat ht .init).trans (exec_init t), exec_init s, sameS_cleared rfl⟩
  · rw [execAll_pair (exec_setcolor s a)]; rfl
  · rw [execAll_pair (exec_setcursor s r c)]; rfl

/-- SETCOLOR and SETCURSOR write different registers. -/
theorem execAll_setcolor_setcursor_comm (a : Byte) (r c : Int) (s : State) :
    execAll [.setcolor a, .setcursor r c] s = execAll [.setcursor r c, .setcolor a] s := by
  rw [execAll_pair (exec_setcolor s a), execAll_pair (exec_setcursor s r c)]
  rfl

theorem execAll_setcolor_wrch (a ch : Byte) (s : State) :
    execAll [.setcolor a, .wrch ch] s = exec (.wrchc ch a) s :=
  (execAll_pair (exec_setcolor s a)).trans (exec_wrchc s ch a).symm

/-- Settles O46: SETCOLOR, then the other command from the state with that colour. -/
theorem commandIdentities : Obligations.CommandIdentities := by
  refine fun s => ⟨?_, fun ch a => (execAll_setcolor_wrch a ch s).symm,
    fun f b => ?_, fun a r c => execAll_setcolor_setcursor_comm a r c s,
    fun f b r c => execAll_setcolor_setcursor_comm (encodeAttribute f b) r c s⟩
  · have hdefault : defaultAttr = 0x07#8 := rfl
    rw [exec_init, hdefault, execAll_pair (exec_setcolor s _), exec_clear]
  · rw [exec_setcolorfb, encodeAttribute, BitVec.or_comm]

end Sys2Proof.Machine
end

section
/-! WRCH and WRCHC by the class of the character, and what can change the grid and the colour (42_surface_commands.md R145,
R146, R148 f). -/

namespace Sys2Proof.Machine

/-- ADVANCE's effect, the three classes together (R120). -/
theorem exec_wrch_charEffect (ch : Byte) {s : State} (hrest : s.AtRest) :
    ∃ t, exec (.wrch ch) s = .next t ∧ CharEffect ch s t := by
  by_cases hnewline : ch = 0x0A#8
  · subst hnewline
    obtain ⟨t, ht, heffect⟩ := newlineFeedsALine s hrest
    exact ⟨t, ht, fun _ => heffect, by simp, by simp⟩
  by_cases hreturn : ch = 0x0D#8
  · subst hreturn
    obtain ⟨t, ht, heffect⟩ := carriageReturnOnlyHomesTheColumn s
    exact ⟨t, ht, by simp, fun _ => heffect, by simp⟩
  obtain ⟨t, ht, heffect⟩ := printableStoresThenAdvances ch s hrest ⟨hnewline, hreturn⟩
  exact ⟨t, ht, fun h => absurd h hnewline, fun h => absurd h hreturn, fun _ _ => heffect⟩

/-! From any state, ADVANCE keeps the colour, and LINEFEED changes the grid only by scrolling. -/

theorem color_of_lineFeed {s t : State} (h : lineFeed s = .next t) : t.color = s.color := by
  rcases lineFeed_eq_next h with ⟨-, rfl⟩ | ⟨-, -, rfl⟩
  · rfl
  · rfl

theorem color_of_advance {ch : Byte} {s t : State} (h : advance ch s = .next t) : t.color = s.color := by
  unfold advance at h
  cases hclass : classify ch with
  | newline => rw [hclass] at h; exact color_of_lineFeed (s := s.withCol 0#7) h
  | carriageReturn => rw [hclass] at h; cases h; rfl
  | printable =>
    rw [hclass] at h
    obtain ⟨-, ⟨-, rfl⟩ | ⟨-, hfeed⟩⟩ := advancePrintable_eq_next h
    · rfl
    · exact color_of_lineFeed (s := (stored ch s).withCol 0#7) hfeed

theorem lineFeed_keeps_mem_or_scrolls {s t : State} (h : lineFeed s = .next t) :
    t.mem = s.mem ∨ t.scrolls = s.scrolls + 1 := by
  rcases lineFeed_eq_next h with ⟨-, rfl⟩ | ⟨-, -, rfl⟩
  · exact .inl rfl
  · exact .inr rfl

theorem advance_changes_mem {ch : Byte} {s t : State} (h : advance ch s = .next t) (hmem : t.mem ≠ s.mem) :
    printable ch ∨ t.scrolls = s.scrolls + 1 := by
  by_cases hnewline : ch = 0x0A#8
  · subst hnewline
    exact .inr ((lineFeed_keeps_mem_or_scrolls (s := s.withCol 0#7) h).resolve_left hmem)
  by_cases hreturn : ch = 0x0D#8
  · subst hreturn
    cases h
    exact absurd rfl hmem
  exact .inl ⟨hnewline, hreturn⟩

/-- Settles O43: WRCHC is WRCH from the state with the new colour, which a character's class does not change. -/
theorem wrchcSetsTheColourThenWrites : Obligations.WrchcSetsTheColourThenWrites := by
  intro ch attr s hrest
  obtain ⟨t, ht, heffect⟩ := exec_wrch_charEffect ch (s := s.withColor attr) hrest
  exact ⟨t, ht, color_of_advance ht, heffect, (execAll_setcolor_wrch attr ch s).trans ht⟩

/-- Settles O47, command by command: ADVANCE changes the grid as `advance_changes_mem` says and never the colour; of the
others, those not named in a clause leave its field as it was. -/
theorem onlyTheseCommandsChangeGridOrColour : Obligations.OnlyTheseCommandsChangeGridOrColour := by
  intro i s t h
  cases i with
  | init => exact ⟨fun _ => .inl rfl, fun _ => .inl rfl⟩
  | clear => cases h; exact ⟨fun _ => .inr (.inl rfl), fun hcolor => absurd rfl hcolor⟩
  | setcolor a => cases h; exact ⟨fun hmem => absurd rfl hmem, fun _ => .inr (.inl ⟨a, rfl⟩)⟩
  | setcolorfb f b => cases h; exact ⟨fun hmem => absurd rfl hmem, fun _ => .inr (.inr (.inl ⟨f, b, rfl⟩))⟩
  | wrch ch =>
    exact ⟨fun hmem => .inr (.inr ⟨ch, 0#8, .inl rfl, advance_changes_mem h hmem⟩),
      fun hcolor => absurd (color_of_advance h) hcolor⟩
  | wrchc ch a =>
    exact ⟨fun hmem => .inr (.inr ⟨ch, a, .inr rfl, advance_changes_mem (s := s.withColor a) h hmem⟩),
      fun _ => .inr (.inr (.inr ⟨ch, a, rfl⟩))⟩
  | setcursor r c => cases h; exact ⟨fun hmem => absurd rfl hmem, fun hcolor => absurd rfl hcolor⟩

end Sys2Proof.Machine
end

section
/-! WRBYTES and WRSTR (43_stream_macros.md R161 to R164): a left fold of WRCH, over all the bytes or over those before the
first zero byte. -/

namespace Sys2Proof.Machine

@[simp] theorem length_wrbytes (bs : List Byte) : (wrbytes bs).length = bs.length := List.length_map _

theorem wrbytes_append (xs ys : List Byte) : wrbytes (xs ++ ys) = wrbytes xs ++ wrbytes ys := List.map_append

theorem color_of_wrbytes {bs : List Byte} {s t : State} (h : execAll (wrbytes bs) s = .next t) : t.color = s.color := by
  induction bs generalizing s with
  | nil => cases h; rfl
  | cons b bs ih =>
    obtain ⟨u, hu, ht⟩ := andThen_eq_next.mp h
    exact (ih ht).trans (color_of_advance hu)

/-- Settles O48: the fold is `execAll` on the list's constructors and on appended lists; every WRCH keeps the colour. -/
theorem wrbytesFoldsWrch : Obligations.WrbytesFoldsWrch := by
  refine ⟨fun bs => List.map_map, fun s => rfl, fun b bs s => rfl, fun xs ys s => ?_, fun bs s hrest => ?_⟩
  · rw [wrbytes_append, execAll_append]
  · obtain ⟨t, ht, htrest⟩ := execAll_completes (wrbytes bs) hrest
    exact ⟨t, ht, htrest, color_of_wrbytes ht⟩

/-- R163's `strlen` is the library's search for the first zero byte. -/
theorem strlen_eq_findIdx? (bs : List Byte) : strlen bs = bs.findIdx? (· = 0#8) := by
  induction bs with
  | nil => rfl
  | cons b bs ih => simp [strlen, List.findIdx?_cons, ih]

/-- R163: the least index of a zero byte. -/
theorem strlen_eq_some_iff (bs : List Byte) (n : Nat) :
    strlen bs = some n ↔ bs[n]? = some 0#8 ∧ ∀ k, k < n → bs[k]? ≠ some 0#8 := by
  rw [strlen_eq_findIdx?, List.findIdx?_eq_some_iff_getElem]
  constructor
  · rintro ⟨hn, hzero, hbefore⟩
    refine ⟨?_, fun k hk => ?_⟩
    · rw [List.getElem?_eq_getElem hn, of_decide_eq_true hzero]
    · rw [List.getElem?_eq_getElem (hk.trans hn)]
      simpa using hbefore k hk
  · rintro ⟨hzero, hbefore⟩
    obtain ⟨hn, hzero⟩ := List.getElem?_eq_some_iff.mp hzero
    refine ⟨hn, decide_eq_true hzero, fun k hk => ?_⟩
    have hne := hbefore k hk
    rw [List.getElem?_eq_getElem (hk.trans hn)] at hne
    simpa using hne

theorem wrstr_of_not_mem {bs : List Byte} (h : 0#8 ∉ bs) : wrstr bs = .error .noTerminator := by
  have hnone : strlen bs = none := by
    rw [strlen_eq_findIdx?, List.findIdx?_eq_none_iff]
    intro b hb
    exact decide_eq_false (ne_of_mem_of_not_mem hb h)
  rw [wrstr, hnone]

/-- Settles O49: `strlen_eq_some_iff`, and `wrstr` by whether there is a zero byte. -/
theorem wrstrStopsAtTheFirstZero : Obligations.WrstrStopsAtTheFirstZero :=
  ⟨strlen_eq_some_iff, fun _ rest h => wrstr_append_zero h rest, fun _ h => wrstr_of_not_mem h⟩

end Sys2Proof.Machine
end

section
/-! How many stores a list of bytes performs (43_stream_macros.md R166). One byte performs `charWrites`, 2001 at the most, and
2001 only on the last cell, where the cursor then leaves the last column: so all the bytes together perform at most one store
over 2000 each. -/

namespace Sys2Proof.Machine

/-- From `s` to `t` exactly `n` stores were logged. -/
def StoresSince (n : Nat) (s t : State) : Prop := ∃ l, t.log = s.log ++ l ∧ (storesOf l).length = n

theorem StoresSince.of_log_eq {s t : State} (h : t.log = s.log) : StoresSince 0 s t :=
  ⟨[], by rw [h, List.append_nil], rfl⟩

theorem StoresSince.trans {n m : Nat} {s t u : State} (h : StoresSince n s t) (h' : StoresSince m t u) :
    StoresSince (n + m) s u := by
  obtain ⟨l, hlog, rfl⟩ := h
  obtain ⟨l', hlog', rfl⟩ := h'
  exact ⟨l ++ l', by rw [hlog', hlog, List.append_assoc], by rw [storesOf_append, List.length_append]⟩

theorem storesSince_of_storeEffect {ch : Byte} {s t : State} (h : StoreEffect ch s t) : StoresSince 1 s t :=
  let ⟨_, _, _, hlog⟩ := h
  ⟨_, hlog, rfl⟩

/-- SCROLL stores each of the 2000 cells once (R126). -/
theorem storesSince_of_scrollEffect {c : Byte} {g : Memory} {before : List CellAccess} {s t : State}
    (h : ScrollEffect c g before s t) : StoresSince ((storesOf before).length + 2000) s t := by
  obtain ⟨-, -, -, l, hlog, hcells, -⟩ := h
  have hlen : (storesOf l).length = 2000 := by simpa using congrArg List.length hcells
  exact ⟨before ++ l, by rw [hlog, List.append_assoc], by rw [storesOf_append, List.length_append, hlen]⟩

/-! `charWrites` by the class of the character. -/

theorem charWrites_newline (s : State) : charWrites 0x0A#8 s = if s.row.toNat < 24 then 0 else 2000 := rfl

theorem charWrites_return (s : State) : charWrites 0x0D#8 s = 0 := rfl

theorem charWrites_printable {ch : Byte} (h : printable ch) (s : State) :
    charWrites ch s = if s.row.toNat = 24 ∧ s.col.toNat = 79 then 2001 else 1 := by
  obtain ⟨hnewline, hreturn⟩ := h
  rw [charWrites, if_neg hnewline, if_neg hreturn]

theorem storesSince_of_newlineEffect {s t : State} (hrow : s.row.toNat < 25) (h : NewlineEffect s t) :
    StoresSince (charWrites 0x0A#8 s) s t := by
  obtain ⟨-, -, -, habove, hlast⟩ := h
  rw [charWrites_newline]
  by_cases hlt : s.row.toNat < 24
  · obtain ⟨-, -, hlog, -⟩ := habove hlt
    rw [if_pos hlt]
    exact .of_log_eq hlog
  · obtain ⟨-, hscroll⟩ := hlast (by omega)
    rw [if_neg hlt]
    exact storesSince_of_scrollEffect hscroll

theorem storesSince_of_printableEffect {ch : Byte} {s t : State} (hrest : s.AtRest) (hch : printable ch)
    (h : PrintableEffect ch s t) : StoresSince (charWrites ch s) s t := by
  obtain ⟨-, -, hwithin, hend, hlast⟩ := h
  rw [charWrites_printable hch]
  rcases hrest.cursor_cases with hcol | ⟨hcol, hrow⟩ | ⟨hcol, hrow⟩
  · obtain ⟨-, -, hstore⟩ := hwithin hcol
    rw [if_neg (by omega)]
    exact storesSince_of_storeEffect hstore
  · obtain ⟨-, -, hstore⟩ := hend hcol hrow
    rw [if_neg (by omega)]
    exact storesSince_of_storeEffect hstore
  · obtain ⟨-, -, -, hscroll⟩ := hlast hcol hrow
    rw [if_pos ⟨hrow, hcol⟩]
    exact storesSince_of_scrollEffect hscroll

/-- From rest a character performs the stores of R202's table. -/
theorem storesSince_of_charEffect {ch : Byte} {s t : State} (hrest : s.AtRest) (h : CharEffect ch s t) :
    StoresSince (charWrites ch s) s t := by
  obtain ⟨hnewline, hreturn, hprintable⟩ := h
  by_cases hn : ch = 0x0A#8
  · obtain ⟨hrow, -, -⟩ := hrest
    rw [hn]
    exact storesSince_of_newlineEffect hrow (hnewline hn)
  by_cases hr : ch = 0x0D#8
  · obtain ⟨-, -, -, -, -, hlog, -⟩ := hreturn hr
    rw [hr, charWrites_return]
    exact .of_log_eq hlog
  exact storesSince_of_printableEffect hrest ⟨hn, hr⟩ (hprintable hn hr)

/-! The bound. -/

/-- 1 on the last cell, where a printable character performs one store over 2000; 0 elsewhere. -/
def extraStore (s : State) : Nat := if s.row.toNat = 24 ∧ s.col.toNat = 79 then 1 else 0

theorem extraStore_le_one (s : State) : extraStore s ≤ 1 := by
  unfold extraStore
  split <;> omega

theorem extraStore_of_col_zero {s : State} (h : s.col = 0#7) : extraStore s = 0 :=
  if_neg fun ⟨_, hcol⟩ => by simp [h] at hcol

theorem charWrites_le (ch : Byte) (s : State) : charWrites ch s ≤ 2000 + extraStore s := by
  unfold charWrites extraStore
  split_ifs <;> omega

/-- A character that performs more than its own store leaves the cursor in column 0. -/
theorem charWrites_le_one_or_col_zero {ch : Byte} {s t : State} (h : CharEffect ch s t) :
    charWrites ch s ≤ 1 ∨ t.col = 0#7 := by
  obtain ⟨hnewline, hreturn, hprintable⟩ := h
  by_cases hn : ch = 0x0A#8
  · obtain ⟨hcol, -⟩ := hnewline hn
    exact .inr hcol
  by_cases hr : ch = 0x0D#8
  · obtain ⟨hcol, -⟩ := hreturn hr
    exact .inr hcol
  obtain ⟨-, -, -, -, hlast⟩ := hprintable hn hr
  by_cases hcell : s.row.toNat = 24 ∧ s.col.toNat = 79
  · obtain ⟨hrow, hcol⟩ := hcell
    obtain ⟨htcol, -⟩ := hlast hcol hrow
    exact .inr htcol
  · exact .inl (by rw [charWrites_printable ⟨hn, hr⟩, if_neg hcell])

/-- The store over 2000 is paid for by leaving the last cell. -/
theorem charWrites_add_extraStore_le {ch : Byte} {s t : State} (h : CharEffect ch s t) :
    charWrites ch s + extraStore t ≤ 2000 + extraStore s := by
  rcases charWrites_le_one_or_col_zero h with hfew | hcol
  · have := extraStore_le_one t
    omega
  · rw [extraStore_of_col_zero hcol]
    exact charWrites_le ch s

theorem wrbytes_stores_le (bs : List Byte) {s : State} (hrest : s.AtRest) :
    ∃ t n, execAll (wrbytes bs) s = .next t ∧ StoresSince n s t ∧ n ≤ 2000 * bs.length + extraStore s := by
  induction bs generalizing s with
  | nil => exact ⟨s, 0, rfl, .of_log_eq rfl, Nat.zero_le _⟩
  | cons b bs ih =>
    obtain ⟨u, hu, heffect⟩ := exec_wrch_charEffect b hrest
    obtain ⟨t, n, ht, hstores, hbound⟩ := ih (atRest_of_exec hrest hu)
    have hstep := charWrites_add_extraStore_le heffect
    refine ⟨t, _, andThen_eq_next.mpr ⟨u, hu, ht⟩, (storesSince_of_charEffect hrest heffect).trans hstores, ?_⟩
    rw [List.length_cons]
    omega

/-! The bound is reached. -/

/-- On the last row every newline scrolls. -/
theorem wrbytes_newlines_stores (k : Nat) {s : State} (hrest : s.AtRest) (hrow : s.row.toNat = 24) :
    ∃ t, execAll (wrbytes (List.replicate k 0x0A#8)) s = .next t ∧ StoresSince (2000 * k) s t := by
  induction k generalizing s with
  | zero => exact ⟨s, rfl, .of_log_eq rfl⟩
  | succ k ih =>
    obtain ⟨u, hu, -, -, -, -, hlast⟩ := newlineFeedsALine s hrest
    obtain ⟨hurow, hscroll⟩ := hlast hrow
    obtain ⟨t, ht, hstores⟩ := ih (atRest_of_exec hrest hu) hurow
    refine ⟨t, andThen_eq_next.mpr ⟨u, hu, ht⟩, ?_⟩
    rw [Nat.mul_succ, Nat.add_comm]
    exact (storesSince_of_scrollEffect hscroll).trans hstores

/-- Settles O50: the bound is `wrbytes_stores_le`; it is reached on the last cell, where the printable byte performs 2001 stores
and leaves the newlines on the last row. -/
theorem wrbytesStoreBound : Obligations.WrbytesStoreBound := by
  refine ⟨length_wrbytes, fun bs s hrest => ?_, fun ch k s hrest hch hrow hcol => ?_⟩
  · obtain ⟨t, _, ht, ⟨l, hlog, rfl⟩, hbound⟩ := wrbytes_stores_le bs hrest
    exact ⟨t, l, ht, hlog, hbound.trans (Nat.add_le_add_left (extraStore_le_one s) _)⟩
  · obtain ⟨u, hu, -, -, -, -, hlast⟩ := printableStoresThenAdvances ch s hrest hch
    obtain ⟨-, hurow, -, hscroll⟩ := hlast hcol hrow
    obtain ⟨t, ht, hstores⟩ := wrbytes_newlines_stores k (atRest_of_exec hrest hu) hurow
    obtain ⟨l, hlog, hlen⟩ := (storesSince_of_scrollEffect hscroll).trans hstores
    refine ⟨t, l, andThen_eq_next.mpr ⟨u, hu, ht⟩, hlog, ?_⟩
    rw [hlen, storesOf, storesOf, List.length_singleton]
    omega

end Sys2Proof.Machine
end

section
/-! What the display sees while the grid scrolls (20_memory.md R63, R66; 70_reset_and_hazards.md R196): SCROLL stores every cell
once, ascending, so after `n` stores the first `n` cells are those of the scrolled grid and the others are as before. -/

namespace Sys2Proof.Machine

/-- A newline on the last row is one SCROLL, and its accesses are SCROLL's. -/
theorem exec_newline_at_last_row {s : State} (hrow : s.row.toNat = 24) (h : s.mem.wf) :
    exec (.wrch 0x0A#8) s = .next ((scrolled (s.withCol 0#7)).withRow 24#5) :=
  lineFeed_of_last (s := s.withCol 0#7) hrow h

theorem accessesSince_of_log_eq {s t : State} {l : List CellAccess} (h : t.log = s.log ++ l) : accessesSince s t = l := by
  rw [accessesSince, h, List.drop_left]

theorem take_storesOf_scrollLog {m : Memory} (h : m.wf) (c : Byte) {n : Nat} (hn : n ≤ 2000) :
    (storesOf (scrollLog m c)).take n =
      (List.range' 0 n).zip ((keptCells m ++ List.replicate 80 (blank c)).take n) := by
  rw [storesOf_scrollLog_eq_zip h, List.zip, List.take_zipWith, List.take_range'_of_length_ge hn]

/-- R196: after `n` of SCROLL's stores the scrolled grid stands in the first `n` cells, the old grid in the rest. -/
theorem readCell_displayView_scrollLog {m : Memory} (h : m.wf) (c : Byte) {n : Nat} (hn : n ≤ 2000) (i : Nat) :
    (displayView m (scrollLog m c) n).readCell i =
      if i < n then (scrolledMem m c).readCell i else m.readCell i := by
  by_cases hi : i < 2000
  · have hlen : ((keptCells m ++ List.replicate 80 (blank c)).take n).length = n := by
      simpa [length_keptCells h] using hn
    have hview := readCell_replay_zip ((keptCells m ++ List.replicate 80 (blank c)).take n) h 0 hi
    rw [hlen, ← take_storesOf_scrollLog h c hn] at hview
    rw [displayView, hview, scrolledMem, Memory.readCell_ofCells]
    by_cases hin : i < n
    · rw [if_pos (by omega), if_pos hin, Nat.sub_zero, List.getElem?_take_of_lt hin]
    · rw [if_neg (by omega), if_neg hin]
  · rw [if_neg (by omega), displayView, h.readCell_eq_none (by omega), (h.replay _).readCell_eq_none (by omega)]

/-- Settles O59: the newline's accesses are SCROLL's, and the scrolled grid holds in each cell above the last row the old cell
one row below. -/
theorem displayMaySeeAHalfDoneScroll : Obligations.DisplayMaySeeAHalfDoneScroll := by
  intro s t r hrest hrow hr h
  obtain ⟨-, -, hwf⟩ := hrest
  rw [exec_newline_at_last_row hrow hwf] at h
  cases h
  rw [accessesSince_of_log_eq (l := scrollLog s.mem s.color) rfl]
  refine ⟨fun i hi => ?_, fun i hi => ?_⟩
  · rw [readCell_displayView_scrollLog hwf _ (by omega), if_pos hi, readCell_scrolledMem hwf, if_pos (by omega)]
  · rw [readCell_displayView_scrollLog hwf _ (by omega), if_neg (by omega)]

end Sys2Proof.Machine
end

section
/-! The work of every command (70_reset_and_hazards.md R202). The cell writes of a character are counted by
`storesSince_of_charEffect`; its cell reads are those of the SCROLL, if there was one. -/

namespace Sys2Proof.Machine

/-- From `s` to `t` exactly `n` cell reads were logged. -/
def ReadsSince (n : Nat) (s t : State) : Prop := ∃ l, t.log = s.log ++ l ∧ (readsOf l).length = n

theorem ReadsSince.of_log_eq {s t : State} (h : t.log = s.log) : ReadsSince 0 s t :=
  ⟨[], by rw [h, List.append_nil], rfl⟩

theorem readsSince_of_storeEffect {ch : Byte} {s t : State} (h : StoreEffect ch s t) : ReadsSince 0 s t :=
  let ⟨_, _, _, hlog⟩ := h
  ⟨_, hlog, rfl⟩

/-- SCROLL reads each cell of rows 1 to 24 once (R126). -/
theorem readsSince_of_scrollEffect {c : Byte} {g : Memory} {before : List CellAccess} {s t : State}
    (hbefore : readsOf before = []) (h : ScrollEffect c g before s t) : ReadsSince 1920 s t := by
  obtain ⟨-, -, -, l, hlog, -, -, hcells, -⟩ := h
  have hlen : (readsOf l).length = 1920 := by simpa using congrArg List.length hcells
  exact ⟨before ++ l, by rw [hlog, List.append_assoc], by rw [readsOf_append, hbefore, List.nil_append, hlen]⟩

/-- The log tells how many stores there were. -/
theorem StoresSince.unique {n n' : Nat} {s t : State} (h : StoresSince n s t) (h' : StoresSince n' s t) : n = n' := by
  obtain ⟨l, hlog, rfl⟩ := h
  obtain ⟨l', hlog', rfl⟩ := h'
  rw [← accessesSince_of_log_eq hlog, accessesSince_of_log_eq hlog']

/-- The log tells which accesses there were, so their writes and their reads are of one list. -/
theorem StoresSince.and_readsSince {n k : Nat} {s t : State} (h : StoresSince n s t) (h' : ReadsSince k s t) :
    ∃ l, t.log = s.log ++ l ∧ (storesOf l).length = n ∧ (readsOf l).length = k := by
  obtain ⟨l, hlog, hstores⟩ := h
  obtain ⟨l', hlog', hreads⟩ := h'
  obtain rfl : l = l' := (accessesSince_of_log_eq hlog).symm.trans (accessesSince_of_log_eq hlog')
  exact ⟨l, hlog, hstores, hreads⟩

/-- From rest a character makes no access, stores its cell, or scrolls once with no read before the SCROLL. -/
theorem accesses_of_charEffect {ch : Byte} {s t : State} (hrest : s.AtRest) (h : CharEffect ch s t) :
    t.log = s.log ∨ StoreEffect ch s t ∨
      ∃ c g before, readsOf before = [] ∧ ScrollEffect c g before s t := by
  obtain ⟨hnewline, hreturn, hprintable⟩ := h
  by_cases hn : ch = 0x0A#8
  · obtain ⟨(hrow : s.row.toNat < 25), -, -⟩ := hrest
    obtain ⟨-, -, -, habove, hlast⟩ := hnewline hn
    by_cases hlt : s.row.toNat < 24
    · obtain ⟨-, -, hlog, -⟩ := habove hlt
      exact .inl hlog
    · obtain ⟨-, hscroll⟩ := hlast (by omega)
      exact .inr (.inr ⟨_, _, _, rfl, hscroll⟩)
  by_cases hr : ch = 0x0D#8
  · obtain ⟨-, -, -, -, -, hlog, -⟩ := hreturn hr
    exact .inl hlog
  obtain ⟨-, -, hwithin, hend, hlast⟩ := hprintable hn hr
  rcases hrest.cursor_cases with hcol | ⟨hcol, hrow⟩ | ⟨hcol, hrow⟩
  · obtain ⟨-, -, hstore⟩ := hwithin hcol
    exact .inr (.inl hstore)
  · obtain ⟨-, -, hstore⟩ := hend hcol hrow
    exact .inr (.inl hstore)
  · obtain ⟨-, -, -, hscroll⟩ := hlast hcol hrow
    exact .inr (.inr ⟨_, _, _, rfl, hscroll⟩)

/-- In R202's table a character reads exactly where it stores the whole grid. -/
theorem charReads_eq (ch : Byte) (s : State) : charReads ch s = if charWrites ch s < 2000 then 0 else 1920 := by
  unfold charReads charWrites
  split_ifs <;> omega

/-- From rest a character performs the cell reads of R202's table. -/
theorem readsSince_of_charEffect {ch : Byte} {s t : State} (hrest : s.AtRest) (h : CharEffect ch s t) :
    ReadsSince (charReads ch s) s t := by
  have hwrites := storesSince_of_charEffect hrest h
  rw [charReads_eq]
  rcases accesses_of_charEffect hrest h with hlog | hstore | ⟨c, g, before, hbefore, hscroll⟩
  · rw [hwrites.unique (.of_log_eq hlog), if_pos (by decide)]
    exact .of_log_eq hlog
  · rw [hwrites.unique (storesSince_of_storeEffect hstore), if_pos (by decide)]
    exact readsSince_of_storeEffect hstore
  · rw [hwrites.unique (storesSince_of_scrollEffect hscroll), if_neg (by omega)]
    exact readsSince_of_scrollEffect hbefore hscroll

/-- From `s` to `t` the command made the accesses of its row in R202's table. -/
def WorkDone (i : Instr) (s t : State) : Prop := StoresSince (workWrites i s) s t ∧ ReadsSince (workReads i s) s t

theorem workDone_wrch {ch : Byte} {s t : State} (hrest : s.AtRest) (h : CharEffect ch s t) : WorkDone (.wrch ch) s t :=
  ⟨storesSince_of_charEffect hrest h, readsSince_of_charEffect hrest h⟩

theorem storesSince_of_fillEffect {v : GridCell} {s t : State} (h : FillEffect v s t) : StoresSince 2000 s t := by
  obtain ⟨-, -, l, hlog, hstores, -⟩ := h
  exact ⟨l, hlog, by rw [hstores, List.length_map, List.length_range]⟩

theorem readsSince_of_fillEffect {v : GridCell} {s t : State} (h : FillEffect v s t) : ReadsSince 0 s t := by
  obtain ⟨-, -, l, hlog, -, hreads⟩ := h
  exact ⟨l, hlog, by rw [hreads, List.length_nil]⟩

theorem exec_workDone (i : Instr) {s : State} (hrest : s.AtRest) : ∃ t, exec i s = .next t ∧ WorkDone i s t := by
  cases i with
  | init =>
    have hfill := fillEffect_cleared (s.withColor defaultAttr)
    exact ⟨_, exec_init s, storesSince_of_fillEffect hfill, readsSince_of_fillEffect hfill⟩
  | clear =>
    have hfill := fillEffect_cleared s
    exact ⟨_, exec_clear s, storesSince_of_fillEffect hfill, readsSince_of_fillEffect hfill⟩
  | setcolor attr => exact ⟨_, exec_setcolor s attr, .of_log_eq rfl, .of_log_eq rfl⟩
  | setcolorfb fg bg => exact ⟨_, exec_setcolorfb s fg bg, .of_log_eq rfl, .of_log_eq rfl⟩
  | wrch ch =>
    obtain ⟨t, ht, heffect⟩ := exec_wrch_charEffect ch hrest
    exact ⟨t, ht, workDone_wrch hrest heffect⟩
  | wrchc ch attr =>
    obtain ⟨t, ht, heffect⟩ := exec_wrch_charEffect ch (s := s.withColor attr) hrest
    exact ⟨t, ht, workDone_wrch (s := s.withColor attr) hrest heffect⟩
  | setcursor row col => exact ⟨_, exec_setcursor s row col, .of_log_eq rfl, .of_log_eq rfl⟩

/-- Settles O60: every command does its row of the table (`exec_workDone`), a reserved word leaves the whole state. -/
theorem workOfEveryCommand : Obligations.WorkOfEveryCommand := by
  refine ⟨fun i s hrest => ?_, fun w r s hdec => runWord_of_decode_error hdec s⟩
  obtain ⟨t, ht, hwrites, hreads⟩ := exec_workDone i hrest
  obtain ⟨l, hwork⟩ := hwrites.and_readsSince hreads
  exact ⟨t, l, ht, hwork⟩

end Sys2Proof.Machine
end

section
/-! Hardware reset (10_state.md R41, 70_reset_and_hazards.md R190 to R192), and commands right after it (R193). -/

namespace Sys2Proof.Machine

/-- Settles O56: the registers and their views are fixed, the grid is `read_resetMemory`'s. -/
theorem resetLeavesRegistersAndFreeGrid : Obligations.ResetLeavesRegistersAndFreeGrid := by
  refine ⟨State.reset_row, State.reset_col, State.reset_color, State.reset_log, ?_, ?_, fun a ha => ?_⟩
  · rw [cursorReg, State.reset_row, State.reset_col]; rfl
  · rw [colorReg, State.reset_color]; rfl
  · rw [State.reset_mem, read_resetMemory 0 ha]

/-- Settles O57: the event answers `hardReset`. -/
theorem hardwareResetAtAnyTime : Obligations.HardwareResetAtAnyTime := by
  intro s
  refine ⟨hardReset s, hostEvent_reset s, hardReset_row s, hardReset_col s, hardReset_color s, atRest_hardReset s,
    hardReset_log s, hardReset_host s, hardReset_observed s, fun a ha => ?_⟩
  rw [hardReset_mem, read_resetMemory _ ha]

theorem atRest_reset : State.reset.AtRest :=
  let ⟨hrest, _⟩ := invariantsHoldAtReset
  hrest

/-- V-R2: the character goes to cell 0, whatever the grid holds. -/
theorem wrch_right_after_reset :
    ∃ t, exec (.wrch 0x41#8) State.reset = .next t ∧ t.row = 0#5 ∧ t.col = 1#7 ∧ t.cell 0 = some 0x0741#16 ∧
      ∀ i, 1 ≤ i → t.cell i = State.reset.cell i := by
  obtain ⟨-, -, hwf⟩ := atRest_reset
  have htarget : idx State.reset.row.toNat State.reset.col.toNat = 0 := rfl
  have hvalue : encodeCell 0x41#8 State.reset.color = 0x0741#16 := rfl
  have hmem : (stored 0x41#8 State.reset).mem = State.reset.mem.setCell 0 0x0741#16 := by
    rw [stored_mem, htarget, hvalue]
  refine ⟨_, exec_wrch_within_row (by decide) atRest_reset (by decide), rfl, rfl, ?_, fun i hi => ?_⟩
  · rw [State.cell, State.withCol_mem, hmem, hwf.readCell_setCell_self (by decide)]
  · rw [State.cell, State.withCol_mem, hmem, Memory.readCell_setCell, if_neg (by omega)]

/-- From rest a newline on the last row, wherever the cursor was before SETCURSOR, is one SCROLL. -/
theorem setcursor_newline_scrolls {s : State} (hrest : s.AtRest) :
    ∃ t, execAll [.setcursor 24 0, .wrch 0x0A#8] s = .next t ∧ ScrollEffect s.color s.mem [] s t := by
  have hcursor := exec_setcursor s 24 0
  obtain ⟨t, ht, -, -, -, -, hlast⟩ := newlineFeedsALine _ (atRest_of_exec hrest hcursor)
  obtain ⟨-, hscroll⟩ := hlast rfl
  exact ⟨t, (execAll_pair hcursor).trans ht, hscroll⟩

/-- V-R4: the unspecified cells move up, the last row is blank in the reset colour. -/
theorem newline_on_last_row_after_reset :
    ∃ t, execAll [.setcursor 24 0, .wrch 0x0A#8] State.reset = .next t ∧
      (∀ i, i < 1920 → t.cell i = State.reset.cell (i + 80)) ∧
      ∀ i, 1920 ≤ i → i < 2000 → t.cell i = some 0x0720#16 := by
  obtain ⟨t, ht, hshifted, hblanked, -⟩ := setcursor_newline_scrolls atRest_reset
  exact ⟨t, ht, hshifted, hblanked⟩

/-- Settles O58: a character, a newline after SETCURSOR, and CLEAR, which fills in the colour that INIT sets
(V-R3). -/
theorem commandsRightAfterReset : Obligations.CommandsRightAfterReset :=
  ⟨wrch_right_after_reset, newline_on_last_row_after_reset,
    ⟨_, _, exec_clear _, exec_init _, sameS_cleared rfl⟩⟩

end Sys2Proof.Machine
end
